-- ==== Sys2Proof/Word.lean ====
section
/-! DEFINITION. The byte, the only quantity of the RVM core with a width (R7, R11). -/

namespace Sys2Proof

/-- A byte (R11): 8 bits, always read as an unsigned integer 0 to 255. Where a byte becomes an address or a value of
IC it is zero-extended (R18, R52), which is `BitVec.toNat`. -/
abbrev Byte := BitVec 8

end Sys2Proof
end

