-- ==== Sys2Proof/Config.lean ====
section
/-! DEFINITION. The implementation parameters (R6, R9, R10) and the byte that fills memory at reset (R35). The spec has
no undefined value, so there is no free value here. -/

namespace Sys2Proof

/-- The parameters that an implementation fixes. They are configuration, not state (R20). -/
structure Config where
  /-- MEM_SIZE (R6): RAM and ROM hold the addresses 0 to `memSize - 1`. -/
  memSize : Nat
  /-- STACK_DEPTH (R9): the most bytes STACK may hold; `none` is unbounded. -/
  stackDepth : Option Nat
  /-- LEGACY_PLACEHOLDERS (R10): when true, MOV and PRINT raise Unimplemented (R166). -/
  legacyPlaceholders : Bool
  deriving DecidableEq, Repr

/-- The values this hardware takes (R6: 65535; R9: unbounded; R10: false). -/
def Config.hardware : Config :=
  { memSize := 65535, stackDepth := none, legacyPlaceholders := false }

/-- What a byte of RAM or ROM holds after Reset (R35, "zero-filled memory"): the byte that an unlisted address reads as. -/
def Config.blankByte : Byte := 0x00

end Sys2Proof
end

