-- ==== Sys2Proof/Machine/State.lean ====
section
/-! DEFINITION. The architectural state (R20 to R37), its reset value (R35), and the reasons a step can stop. -/

namespace Sys2Proof.Machine

/-- The register file (R7, R20): `a` is `x[1]`, `b` is `x[2]` (R12). -/
inductive Reg where
  | a
  | b
  deriving DecidableEq, Repr

/-- One output event (R33): the register that PRINT named and the byte it held. -/
structure OutEvent where
  reg : Reg
  value : Byte
  deriving DecidableEq, Repr

/-- What the last Step that did not fault answered its caller (R110, R175). The model's own; see log entry 1. -/
inductive Report where
  /-- No Step has completed since Reset. -/
  | noStep
  /-- The instruction completed. -/
  | ok
  /-- The opcode fetched was HALT; nothing was written (R164, R207). -/
  | halted
  deriving DecidableEq, Repr

/-- A byte array (R31, R32) as the list of its bytes that differ from `Config.blankByte`, in the canonical form that
`Memory.wf` states: addresses strictly rising, no listed byte equal to what an unlisted address reads as. -/
abbrev Memory := List Host.Cell

/-- The whole state. The first six fields are the closed list of R20; `out` is the output stream of R33, an observation of
the run; `report` is the model's own field for the result that Step hands to its caller. -/
structure State where
  /-- Register A (R21). -/
  regA : Byte
  /-- Register B (R22). -/
  regB : Byte
  /-- The instruction pointer IC (R24, R25): a natural number, never wrapped. -/
  ic : Nat
  /-- STACK (R29, R30), bottom first: the top is the last element. -/
  stack : List Byte
  /-- RAM (R31): the program and all operand bytes. -/
  ram : Memory
  /-- ROM (R32): no instruction reads it. -/
  rom : Memory
  /-- OUT (R33), oldest event first. -/
  out : List OutEvent
  /-- The result of the last Step that did not fault; DESIGN CHOICE, log entry 1. -/
  report : Report
  deriving DecidableEq, Repr

/-- The machine right after Reset (R35, R210): zeroed registers and IC, empty STACK, zero-filled RAM and ROM, empty OUT.
`report` is `noStep`: DESIGN CHOICE, log entry 1. -/
def State.reset : State :=
  { regA := 0, regB := 0, ic := 0, stack := [], ram := [], rom := [], out := [], report := .noStep }

/-- The faults of R185. Each is the spec's own and leaves the state as it was before the step (R197). -/
inductive Fault where
  /-- Code 1 (R187): raised by selector decoding, in ADD, SUB, MULT, DIV, JMP_IF_A, JMP_IF_B, MOV and PRINT, when the byte
  `b` at `addr` is not 1 or 2. Safe: the spec names this fault. -/
  | invalidRegisterSelector (addr : Nat) (b : Byte)
  /-- Code 2 (R188): raised by JMP_IF_A and JMP_IF_B when the selector byte at `addr` names the other register `r`.
  Safe: the spec names this fault. -/
  | registerSelectorMismatch (addr : Nat) (r : Reg)
  /-- Code 3 (R189): raised by DIV with immediate 0. Safe: the spec names this fault. -/
  | divisionByZero
  /-- Code 4 (R190): raised by POP on an empty STACK. Safe: the spec names this fault. -/
  | stackUnderflow
  /-- Code 5 (R191): raised by the fetch, by an operand read or by a jump whose address or target `addr` is not below
  MEM_SIZE. Safe: the spec names this fault. -/
  | addressOutOfRange (addr : Nat)
  /-- Code 6 (R192): raised by MOV and PRINT only when LEGACY_PLACEHOLDERS is true, so never by this hardware. Safe: the
  spec names this fault. -/
  | unimplemented (o : Nat) (opc : Byte)
  /-- Code 7 (R193): raised by the dispatcher for an opcode byte in 0x0C..0xFF at `o`. Safe: the spec names this fault. -/
  | invalidOpcode (o : Nat) (opc : Byte)
  /-- Code 8 (R194): raised by PUSH only when STACK_DEPTH is finite and STACK is full, so never by this hardware. Safe: the
  spec names this fault. -/
  | stackOverflow
  deriving DecidableEq, Repr

/-- What has no meaning. No step of this machine is refused. -/
inductive Refusal where
  /-- Raised by `exec` for an instruction that has no meaning yet; no arm answers it. Safe: the model stops. -/
  | notModelled (mnemonic : String)
  /-- Raised by the host operations LoadRAM and LoadROM for an image of `n` bytes where `n` is not MEM_SIZE: "an image of
  any other length cannot be presented" (R172). Safe: the model stops. -/
  | imageLength (n : Nat)
  deriving DecidableEq, Repr

end Sys2Proof.Machine
end

