-- ==== Sys2Proof/Machine/Ops.lean ====
section
/-! DEFINITION. The named operations over memory, registers, STACK and OUT (R12 to R17), and the delivery of a fault. -/

namespace Sys2Proof.Machine

/-! ### Byte arrays -/

/-- The byte of the array at an address; an unlisted address reads as `Config.blankByte` (R35, R60). Bounds are checked by
`memRead`. -/
def Memory.read : Memory → Nat → Byte
  | [], _ => Config.blankByte
  | (k, w) :: m, a => if k = a then w else Memory.read m a

/-- A cell put before the rest, unless its byte is what an unlisted address reads as. -/
def Memory.cell (a : Nat) (v : Byte) (m : Memory) : Memory :=
  if v = Config.blankByte then m else (a, v) :: m

/-- `RAM[addr] <- v` on the canonical form. -/
def Memory.write : Memory → Nat → Byte → Memory
  | [], a, v => Memory.cell a v []
  | (k, w) :: m, a, v =>
    if a < k then Memory.cell a v ((k, w) :: m)
    else if a = k then Memory.cell a v m
    else (k, w) :: Memory.write m a v

/-- Every listed address is at least `lo`, addresses strictly rise, and no listed byte is `Config.blankByte`. -/
def Memory.wfFrom : Nat → Memory → Bool
  | _, [] => true
  | lo, (k, w) :: m => decide (lo ≤ k) && decide (w ≠ Config.blankByte) && Memory.wfFrom (k + 1) m

/-- The canonical form: two arrays with the same bytes are the same list. -/
def Memory.wf (m : Memory) : Bool := Memory.wfFrom 0 m

/-- Every listed address exists in an array of `n` bytes (R6: addresses 0 to n - 1). -/
def Memory.within (n : Nat) (m : Memory) : Bool := m.all fun cell => decide (cell.1 < n)

/-- The array that holds the bytes of the list from address `a` on and is blank elsewhere. -/
def Memory.ofBytes : Nat → List Byte → Memory
  | _, [] => []
  | a, v :: vs => Memory.cell a v (Memory.ofBytes (a + 1) vs)

/-! ### Raising and delivering a fault -/

/-- `raise F(info)` (R16): ends the step at once, with none of its writes. -/
def raise {α : Type} (f : Fault) : Except Fault α := .error f

/-- A check of an instruction rule: `raise f` unless it holds. -/
def require (p : Prop) [Decidable p] (f : Fault) : Except Fault Unit :=
  if p then .ok () else raise f

/-- How a step ends (R110, R113, R186): a rule that ran to its end delivers its new state; a fault is the result of the
step, and nothing else happens: control goes nowhere, nothing is saved, and the state stays what it was (R197). There is
no return from a fault (R198). -/
def deliver : Except Fault State → Host.Outcome State Fault Refusal
  | .ok s => .next s
  | .error f => .fault f

/-- The code of a fault (R185). -/
def Fault.code : Fault → Nat
  | .invalidRegisterSelector _ _ => 1
  | .registerSelectorMismatch _ _ => 2
  | .divisionByZero => 3
  | .stackUnderflow => 4
  | .addressOutOfRange _ => 5
  | .unimplemented _ _ => 6
  | .invalidOpcode _ _ => 7
  | .stackOverflow => 8

/-! ### Bounds-checked access -/

/-- `MemRead(addr, 1)` (R13, R56): never reads ROM, never reduces the address. -/
def memRead (c : Config) (s : State) (addr : Nat) : Except Fault Byte := do
  require (addr < c.memSize) (.addressOutOfRange addr)
  .ok (s.ram.read addr)

/-- `MemWrite(addr, 1, v)` (R14), which no instruction uses (R57); an address that does not exist is left alone. -/
def memWrite (c : Config) (s : State) (addr : Nat) (v : Byte) : State :=
  if addr < c.memSize then { s with ram := s.ram.write addr v } else s

/-- `memWrite` of the bytes of the list at consecutive addresses. -/
def memWriteBytes (c : Config) : State → Nat → List Byte → State
  | s, _, [] => s
  | s, addr, v :: vs => memWriteBytes c (memWrite c s addr v) (addr + 1) vs

/-! ### Registers, IC, STACK, OUT -/

/-- The register id (R12, R115): 1 for A, 2 for B. -/
def Reg.id : Reg → Nat
  | .a => 1
  | .b => 2

/-- `x[r]` (R12). -/
def State.reg (s : State) : Reg → Byte
  | .a => s.regA
  | .b => s.regB

/-- `x[r] <- v` (R12). A write to one register never changes the other (R22). -/
def State.setReg (s : State) (r : Reg) (v : Byte) : State :=
  match r with
  | .a => { s with regA := v }
  | .b => { s with regB := v }

/-- The post-fetch IC, the `pc` of every instruction rule (R12, R111, D1): the fetch consumes the opcode byte. -/
def State.postFetch (s : State) : Nat := s.ic + 1

/-- `pc <- target` (R12). -/
def State.setIc (s : State) (target : Nat) : State := { s with ic := target }

/-- `Push(v)` (R15): `v` becomes the top. -/
def State.pushByte (s : State) (v : Byte) : State := { s with stack := s.stack ++ [v] }

/-- `Pop()` with its value discarded (R15, R152). -/
def State.popByte (s : State) : State := { s with stack := s.stack.dropLast }

/-- R150's test for a full STACK: STACK_DEPTH is finite and `len(STACK) = STACK_DEPTH` (R151). -/
def stackFull (c : Config) (s : State) : Bool :=
  match c.stackDepth with
  | none => false
  | some n => decide (s.stack.length = n)

/-- `Out(r, x[r])` (R17, R162). -/
def State.emit (s : State) (r : Reg) : State :=
  { s with out := s.out ++ [{ reg := r, value := s.reg r }] }

/-- The result that the step hands to its caller (R110). -/
def State.setReport (s : State) (r : Report) : State := { s with report := r }

/-- The end of an instruction that completed (R113): its writes are the new state, and the result is Ok. -/
def commit (s : State) : Except Fault State := .ok (s.setReport .ok)

end Sys2Proof.Machine
end

