-- ==== Sys2Proof/Machine/Operands.lean ====
section
/-! DEFINITION. The operand forms (R84): a byte of the instruction, a register selector (R115), and the one-level
pointer-through-memory indirection of the jumps (R144). -/

namespace Sys2Proof.Machine

/-- `MemRead(addr, 1)` of an operand byte that the fetch has already taken from RAM at `addr` with the opcode: the bounds
check of R13 and R56, and then that byte `b`. The check stands here, in the order of the instruction's own rule (R114,
R195), so that a byte that the rule does not read is not checked (R86). See log entry 2. -/
def operandByte (c : Config) (addr : Nat) (b : Byte) : Except Fault Byte := do
  require (addr < c.memSize) (.addressOutOfRange addr)
  .ok b

/-- The register that a selector byte names (R115): the whole byte is tested. -/
def selReg (b : Byte) : Option Reg :=
  if b = 1 then some .a else if b = 2 then some .b else none

/-- `DecodeSel(addr)` (R115), with `b` the byte at `addr`. -/
def decodeSel (c : Config) (addr : Nat) (b : Byte) : Except Fault Reg := do
  let sel ← operandByte c addr b
  match selReg sel with
  | some r => .ok r
  | none => raise (.invalidRegisterSelector addr sel)

/-- `Indirect(q)` (R144), with `ptr` the byte at `q + 1`: the target that IC takes. The byte at `q` is not read. The last
check is R141's; it cannot fail when MEM_SIZE is at least 256. -/
def indirect (c : Config) (s : State) (q : Nat) (ptr : Byte) : Except Fault Nat := do
  let p ← operandByte c (q + 1) ptr
  let t ← memRead c s p.toNat
  require (t.toNat < c.memSize) (.addressOutOfRange t.toNat)
  .ok t.toNat

end Sys2Proof.Machine
end

