-- ==== Sys2Proof/Machine/Arithmetic.lean ====
section
/-! DEFINITION. ADD, SUB, MULT and DIV (R130 to R139). Each meaning `execX` is the rule `xIn` at this hardware's
configuration. -/

namespace Sys2Proof.Machine

/-! ### The arithmetic unit: exact on the unsigned values, then the low 8 bits (R136) -/

/-- `(x + y) mod 256` (R131). -/
def aluAdd (x y : Byte) : Byte := BitVec.ofNat 8 (x.toNat + y.toNat)

/-- `(x - y) mod 256` (R132). -/
def aluSub (x y : Byte) : Byte := BitVec.ofInt 8 ((x.toNat : Int) - (y.toNat : Int))

/-- `(x * y) mod 256` (R133). -/
def aluMult (x y : Byte) : Byte := BitVec.ofNat 8 (x.toNat * y.toNat)

/-- `x div y`, the unsigned floor quotient (R137); only used with `y ≠ 0`. -/
def aluDiv (x y : Byte) : Byte := BitVec.ofNat 8 (x.toNat / y.toNat)

/-! ### The four instructions -/

/-- The common part (R130, R135): the selector, then the immediate; `f` computes the result from the source's old value;
the destination is always A, whatever the selector. -/
def arith (c : Config) (f : Byte → Byte → Except Fault Byte) (sel imm : Byte) (s : State) : Except Fault State := do
  let pc := s.postFetch
  let r ← decodeSel c pc sel
  let n ← operandByte c (pc + 1) imm
  let v ← f (s.reg r) n
  commit ((s.setReg .a v).setIc (pc + 2))

/-- ADD (R131). -/
def addIn (c : Config) (sel imm : Byte) (s : State) : Except Fault State :=
  arith c (fun x n => .ok (aluAdd x n)) sel imm s

/-- SUB (R132): source register minus immediate. -/
def subIn (c : Config) (sel imm : Byte) (s : State) : Except Fault State :=
  arith c (fun x n => .ok (aluSub x n)) sel imm s

/-- MULT (R133). -/
def multIn (c : Config) (sel imm : Byte) (s : State) : Except Fault State :=
  arith c (fun x n => .ok (aluMult x n)) sel imm s

/-- DIV's computation (R134): the zero test comes after both operand bytes. -/
def divide (x n : Byte) : Except Fault Byte := do
  require (n ≠ 0) .divisionByZero
  .ok (aluDiv x n)

/-- DIV (R134). -/
def divIn (c : Config) (sel imm : Byte) (s : State) : Except Fault State :=
  arith c divide sel imm s

/-- ADD on this hardware. -/
def execAdd (sel imm : Byte) (s : State) : Host.Outcome State Fault Refusal :=
  deliver (addIn Config.hardware sel imm s)

/-- SUB on this hardware. -/
def execSub (sel imm : Byte) (s : State) : Host.Outcome State Fault Refusal :=
  deliver (subIn Config.hardware sel imm s)

/-- MULT on this hardware. -/
def execMult (sel imm : Byte) (s : State) : Host.Outcome State Fault Refusal :=
  deliver (multIn Config.hardware sel imm s)

/-- DIV on this hardware. -/
def execDiv (sel imm : Byte) (s : State) : Host.Outcome State Fault Refusal :=
  deliver (divIn Config.hardware sel imm s)

end Sys2Proof.Machine
end

