-- ==== Sys2Proof/Machine/Flags.lean ====
section
/-! DEFINITION. The machine has no flags register and no instruction has a flag side effect (R27). The one condition a
program can test is that a register holds zero. -/

namespace Sys2Proof.Machine

/-- The condition of the conditional jumps (R27, R142, R143): the register IS zero. -/
def State.isZero (s : State) (r : Reg) : Bool := (s.reg r).toNat == 0

end Sys2Proof.Machine
end

