-- ==== Sys2Proof/Machine/Jumps.lean ====
section
/-! DEFINITION. JMP, JMP_IF_A and JMP_IF_B (R140 to R147). -/

namespace Sys2Proof.Machine

/-- JMP (R140): the byte at `pc` is ignored, the pointer byte is at `pc + 1`. -/
def jmpIn (c : Config) (_ign ptr : Byte) (s : State) : Except Fault State := do
  let t ← indirect c s s.postFetch ptr
  commit (s.setIc t)

/-- A conditional jump on the register `own` (R142, R143, R147): the two-step selector check, then the test; taken when
the register is zero, and then the pointer byte is at `pc + 2`. The not-taken path reads nothing more. -/
def jumpIfZero (c : Config) (own : Reg) (sel ptr : Byte) (s : State) : Except Fault State := do
  let pc := s.postFetch
  let r ← decodeSel c pc sel
  require (r = own) (.registerSelectorMismatch pc r)
  if s.isZero own then do
    let t ← indirect c s (pc + 1) ptr
    commit (s.setIc t)
  else
    commit (s.setIc (pc + 2))

/-- JMP_IF_A (R142). -/
def jmpIfAIn (c : Config) (sel _ign ptr : Byte) (s : State) : Except Fault State :=
  jumpIfZero c .a sel ptr s

/-- JMP_IF_B (R143). -/
def jmpIfBIn (c : Config) (sel _ign ptr : Byte) (s : State) : Except Fault State :=
  jumpIfZero c .b sel ptr s

/-- JMP on this hardware. -/
def execJmp (ign ptr : Byte) (s : State) : Host.Outcome State Fault Refusal :=
  deliver (jmpIn Config.hardware ign ptr s)

/-- JMP_IF_A on this hardware. -/
def execJmpIfA (sel ign ptr : Byte) (s : State) : Host.Outcome State Fault Refusal :=
  deliver (jmpIfAIn Config.hardware sel ign ptr s)

/-- JMP_IF_B on this hardware. -/
def execJmpIfB (sel ign ptr : Byte) (s : State) : Host.Outcome State Fault Refusal :=
  deliver (jmpIfBIn Config.hardware sel ign ptr s)

end Sys2Proof.Machine
end

