-- ==== Sys2Proof/Machine/MovPrintHalt.lean ====
section
/-! DEFINITION. MOV, PRINT and HALT (R160 to R166). -/

namespace Sys2Proof.Machine

/-- MOV (R160), or the placeholder of R166: the destination selector, then the source selector. -/
def movIn (c : Config) (dsel ssel : Byte) (s : State) : Except Fault State := do
  require (c.legacyPlaceholders = false) (.unimplemented s.ic 0x0A)
  let pc := s.postFetch
  let d ← decodeSel c pc dsel
  let r ← decodeSel c (pc + 1) ssel
  commit ((s.setReg d (s.reg r)).setIc (pc + 2))

/-- PRINT (R162), or the placeholder of R166. -/
def printIn (c : Config) (sel : Byte) (s : State) : Except Fault State := do
  require (c.legacyPlaceholders = false) (.unimplemented s.ic 0x0B)
  let pc := s.postFetch
  let r ← decodeSel c pc sel
  commit ((s.emit r).setIc (pc + 1))

/-- HALT (R164): nothing is written, IC stays at the HALT byte, and the step's result is Halted, not a fault (R207). -/
def haltIn (s : State) : Except Fault State := .ok (s.setReport .halted)

/-- MOV on this hardware. -/
def execMov (dsel ssel : Byte) (s : State) : Host.Outcome State Fault Refusal :=
  deliver (movIn Config.hardware dsel ssel s)

/-- PRINT on this hardware. -/
def execPrint (sel : Byte) (s : State) : Host.Outcome State Fault Refusal :=
  deliver (printIn Config.hardware sel s)

/-- HALT on this hardware. -/
def execHalt (s : State) : Host.Outcome State Fault Refusal :=
  deliver (haltIn s)

end Sys2Proof.Machine
end

