-- ==== Sys2Proof/Machine/Stack.lean ====
section
/-! DEFINITION. PUSH and POP (R150 to R153). -/

namespace Sys2Proof.Machine

/-- PUSH (R150, R151): the byte at `pc` is ignored; the immediate's address is checked before STACK is tested for room. -/
def pushIn (c : Config) (_ign imm : Byte) (s : State) : Except Fault State := do
  let pc := s.postFetch
  let v ← operandByte c (pc + 1) imm
  require (stackFull c s = false) .stackOverflow
  commit ((s.pushByte v).setIc (pc + 2))

/-- POP (R152): reads no memory after the opcode, so the configuration plays no part; the byte popped is discarded. -/
def popIn (_ign : Byte) (s : State) : Except Fault State := do
  require (s.stack ≠ []) .stackUnderflow
  commit (s.popByte.setIc (s.postFetch + 1))

/-- PUSH on this hardware. -/
def execPush (ign imm : Byte) (s : State) : Host.Outcome State Fault Refusal :=
  deliver (pushIn Config.hardware ign imm s)

/-- POP on this hardware. -/
def execPop (ign : Byte) (s : State) : Host.Outcome State Fault Refusal :=
  deliver (popIn ign s)

end Sys2Proof.Machine
end

