-- ==== Sys2Proof/Syntax.lean ====
section
/-! DEFINITION. The twelve instructions, one constructor for each row of the opcode table (R87). -/

namespace Sys2Proof

/-- An instruction with its operand bytes as they lie in memory, in the order of the format tables of R83. A selector stays
the raw byte, because it is decoded (and may fault) during execution, not by the dispatcher (R92, R112). An ignored byte
(R86) is kept as `ign`, so that no byte of an encoding is dropped. -/
inductive Instr where
  /-- HALT, format Z (R164). -/
  | halt
  /-- ADD, format SI (R131). -/
  | add (sel imm : Byte)
  /-- SUB, format SI (R132). -/
  | sub (sel imm : Byte)
  /-- MULT, format SI (R133). -/
  | mult (sel imm : Byte)
  /-- DIV, format SI (R134). -/
  | div (sel imm : Byte)
  /-- JMP, format XI (R140). -/
  | jmp (ign ptr : Byte)
  /-- JMP_IF_A, format SXP (R142). `ptr` is also the next opcode when the jump is not taken (R91). -/
  | jmpIfA (sel ign ptr : Byte)
  /-- JMP_IF_B, format SXP (R143). -/
  | jmpIfB (sel ign ptr : Byte)
  /-- PUSH, format XI (R150). -/
  | push (ign imm : Byte)
  /-- POP, format X (R152). -/
  | pop (ign : Byte)
  /-- MOV, format SS (R160). -/
  | mov (dsel ssel : Byte)
  /-- PRINT, format S (R162). -/
  | print (sel : Byte)
  deriving DecidableEq, Repr

end Sys2Proof
end

