-- ==== Sys2Proof/Machine/Dispatch.lean ====
section
/-! DEFINITION. The meaning of each instruction (R112), one arm per constructor. -/

namespace Sys2Proof.Machine

def exec (i : Instr) (s : State) : Host.Outcome State Fault Refusal :=
  match i with
  | .halt => Sys2Proof.Machine.execHalt s
  | .add sel imm => Sys2Proof.Machine.execAdd sel imm s
  | .sub sel imm => Sys2Proof.Machine.execSub sel imm s
  | .mult sel imm => Sys2Proof.Machine.execMult sel imm s
  | .div sel imm => Sys2Proof.Machine.execDiv sel imm s
  | .jmp ign ptr => Sys2Proof.Machine.execJmp ign ptr s
  | .jmpIfA sel ign ptr => Sys2Proof.Machine.execJmpIfA sel ign ptr s
  | .jmpIfB sel ign ptr => Sys2Proof.Machine.execJmpIfB sel ign ptr s
  | .push ign imm => Sys2Proof.Machine.execPush ign imm s
  | .pop ign => Sys2Proof.Machine.execPop ign s
  | .mov dsel ssel => Sys2Proof.Machine.execMov dsel ssel s
  | .print sel => Sys2Proof.Machine.execPrint sel s

end Sys2Proof.Machine
end

