-- ==== Sys2Proof/WellFormed.lean ====
section
/-! DEFINITION. Which instructions have legal selector bytes (R92). An ill-formed instruction still decodes and runs: its
meaning raises the selector fault of R187 or R188. -/

namespace Sys2Proof

/-- The selector bytes that name a register (R115): 1 is A, 2 is B. -/
def legalSelector (b : Byte) : Bool := b == 1 || b == 2

/-- R92: every selector of the instruction is one that the instruction accepts. Immediates, pointers and ignored bytes
have no illegal value (R84, R86, R89). -/
def Instr.wellFormed : Instr → Bool
  | .halt => true
  | .add sel _ => legalSelector sel
  | .sub sel _ => legalSelector sel
  | .mult sel _ => legalSelector sel
  | .div sel _ => legalSelector sel
  | .jmp _ _ => true
  | .jmpIfA sel _ _ => sel == 1
  | .jmpIfB sel _ _ => sel == 2
  | .push _ _ => true
  | .pop _ => true
  | .mov dsel ssel => legalSelector dsel && legalSelector ssel
  | .print sel => legalSelector sel

end Sys2Proof
end

