-- ==== Sys2Proof/Decode.lean ====
section
/-! DEFINITION. The decoder, total on any bytes (R80 to R90, R112), and after it the encoder, both written from the format
tables of R83 and the opcode map of R87. -/

namespace Sys2Proof

/-- Why a list of bytes is no instruction. -/
inductive DecodeError where
  /-- There is no opcode byte. -/
  | noBytes
  /-- The opcode byte is one of 0x0C..0xFF (R88). -/
  | invalidOpcode (opc : Byte)
  /-- The list ends before byte number `k` of the instruction's footprint (R85), counted from the opcode as 0. The
  machine's fetch never gives the decoder so short a list. -/
  | truncated (opc : Byte) (k : Nat)
  deriving DecidableEq, Repr

/-- The operand byte of a format with one byte after the opcode (formats S and X of R83). -/
def decodeOne (opc : Byte) (f : Byte → Instr) : List Byte → Except DecodeError Instr
  | x :: _ => .ok (f x)
  | [] => .error (.truncated opc 1)

/-- The operand bytes of a format with two bytes after the opcode (formats SI, SS and XI of R83). -/
def decodeTwo (opc : Byte) (f : Byte → Byte → Instr) : List Byte → Except DecodeError Instr
  | x :: y :: _ => .ok (f x y)
  | [_] => .error (.truncated opc 2)
  | [] => .error (.truncated opc 1)

/-- The operand bytes of a format with three bytes after the opcode (format SXP of R83). -/
def decodeThree (opc : Byte) (f : Byte → Byte → Byte → Instr) : List Byte → Except DecodeError Instr
  | x :: y :: z :: _ => .ok (f x y z)
  | [_, _] => .error (.truncated opc 3)
  | [_] => .error (.truncated opc 2)
  | [] => .error (.truncated opc 1)

/-- The instruction whose opcode is the first byte of the list, by the table of R87 and R112: the whole byte selects
(R81), and the bytes after it are the operands at increasing addresses (R80). Bytes after the footprint are left alone. -/
def decode : List Byte → Except DecodeError Instr
  | [] => .error .noBytes
  | opc :: rest =>
    if opc = 0x00 then .ok .halt
    else if opc = 0x01 then decodeTwo opc .add rest
    else if opc = 0x02 then decodeTwo opc .sub rest
    else if opc = 0x03 then decodeTwo opc .mult rest
    else if opc = 0x04 then decodeTwo opc .div rest
    else if opc = 0x05 then decodeTwo opc .jmp rest
    else if opc = 0x06 then decodeThree opc .jmpIfA rest
    else if opc = 0x07 then decodeThree opc .jmpIfB rest
    else if opc = 0x08 then decodeTwo opc .push rest
    else if opc = 0x09 then decodeOne opc .pop rest
    else if opc = 0x0A then decodeTwo opc .mov rest
    else if opc = 0x0B then decodeOne opc .print rest
    else .error (.invalidOpcode opc)

/-- The bytes of an instruction from its opcode address on, through the last byte of its footprint (R83, R87). -/
def encode : Instr → List Byte
  | .halt => [0x00]
  | .add sel imm => [0x01, sel, imm]
  | .sub sel imm => [0x02, sel, imm]
  | .mult sel imm => [0x03, sel, imm]
  | .div sel imm => [0x04, sel, imm]
  | .jmp ign ptr => [0x05, ign, ptr]
  | .jmpIfA sel ign ptr => [0x06, sel, ign, ptr]
  | .jmpIfB sel ign ptr => [0x07, sel, ign, ptr]
  | .push ign imm => [0x08, ign, imm]
  | .pop ign => [0x09, ign]
  | .mov dsel ssel => [0x0A, dsel, ssel]
  | .print sel => [0x0B, sel]

/-- The footprint (R85): how many bytes from the opcode through the last byte that the format gives the instruction. -/
def Instr.footprint : Instr → Nat
  | .halt => 1
  | .add _ _ => 3
  | .sub _ _ => 3
  | .mult _ _ => 3
  | .div _ _ => 3
  | .jmp _ _ => 3
  | .jmpIfA _ _ _ => 4
  | .jmpIfB _ _ _ => 4
  | .push _ _ => 3
  | .pop _ => 2
  | .mov _ _ => 3
  | .print _ => 2

/-- The fall-through length (R85): how far a completed, non-jumping execution advances IC from the opcode address; `none`
for HALT (IC stays) and JMP (always jumps). -/
def Instr.fallThrough : Instr → Option Nat
  | .halt => none
  | .add _ _ => some 3
  | .sub _ _ => some 3
  | .mult _ _ => some 3
  | .div _ _ => some 3
  | .jmp _ _ => none
  | .jmpIfA _ _ _ => some 3
  | .jmpIfB _ _ _ => some 3
  | .push _ _ => some 3
  | .pop _ => some 2
  | .mov _ _ => some 3
  | .print _ => some 2

/-- The longest footprint (R85): the bytes that a fetch takes from the opcode address on. -/
def maxFootprint : Nat := 4

/-- The first `k` bytes of the number `w`, lowest first: the order in which an instruction's bytes lie in memory. -/
def bytesOfWord : (k w : Nat) → List Byte
  | 0, _ => []
  | k + 1, w => BitVec.ofNat 8 w :: bytesOfWord k (w / 256)

/-- The bytes in memory of the instruction whose low `nbits` bits are `w` and whose other bits are 0. -/
def tableWordBytes (nbits w : Nat) : List Byte := bytesOfWord maxFootprint (w % 2 ^ nbits)

/-- The instruction that the decoder reads from an instruction word as spec/opcode_table.json numbers its bits. -/
def decodeTableWord (nbits w : Nat) : Option Instr :=
  match decode (tableWordBytes nbits w) with
  | .ok i => some i
  | .error _ => none

end Sys2Proof
end

