-- ==== Sys2Proof/Machine/Fetch.lean ====
section
/-! DEFINITION. Fetch and dispatch (R111, R112): the bytes at IC become an instruction or a fault. -/

namespace Sys2Proof.Machine

/-- The opcode byte at IC and the bytes after it, as many as the longest footprint. A byte that lies past the end of RAM
is given as blank here; no instruction uses it, because `operandByte` raises AddressOutOfRange first. See log entry 2. -/
def fetchWindow (s : State) : List Byte :=
  (List.range maxFootprint).map fun k => s.ram.read (s.ic + k)

/-- The fault of a fetch whose bytes are no instruction (R112, R193). The window is never empty or short, so the other two
cases do not occur; they are given the fault of the first byte that is absent (R56). -/
def fetchFault (s : State) : DecodeError → Fault
  | .invalidOpcode opc => .invalidOpcode s.ic opc
  | .noBytes => .addressOutOfRange s.ic
  | .truncated _ k => .addressOutOfRange (s.ic + k)

/-- The bounds check of the fetch (R111), then dispatch on the opcode byte (R112). -/
def fetchInstr (c : Config) (s : State) : Except Fault Instr := do
  require (s.ic < c.memSize) (.addressOutOfRange s.ic)
  match decode (fetchWindow s) with
  | .ok i => .ok i
  | .error e => raise (fetchFault s e)

end Sys2Proof.Machine
end

