-- ==== Sys2Proof/Machine/Step.lean ====
section
/-! DEFINITION. One step of the machine (R110 to R113) and the placing of an instruction where it fetches. -/

namespace Sys2Proof.Machine

/-- `Step` (R110): fetch, dispatch, and the instruction's own rule, as one atomic transition. A fault of the fetch is the
result of the step, as any other fault. -/
def step (s : State) : Host.Outcome State Fault Refusal :=
  match fetchInstr Config.hardware s with
  | .ok i => exec i s
  | .error f => .fault f

/-- The state with the instruction whose low `nbits` bits are `w` in RAM from IC on (R80). It stands for the load of a
program by the host; see log entry 10. -/
def State.withFetchWord (s : State) (nbits w : Nat) : State :=
  memWriteBytes Config.hardware s s.ic (tableWordBytes nbits w)

end Sys2Proof.Machine
end

