-- ==== Sys2Proof/Machine/Configured.lean ====
section
/-! DEFINITION. The same machine at any value of the parameters (R6, R9, R10): the realisations with a finite STACK_DEPTH
(R151), with LEGACY_PLACEHOLDERS (R166) or with another MEM_SIZE. `step` is `stepIn Config.hardware`. -/

namespace Sys2Proof.Machine

/-- The rule of an instruction in the configuration `c`. -/
def ruleIn (c : Config) (i : Instr) (s : State) : Except Fault State :=
  match i with
  | .halt => haltIn s
  | .add sel imm => addIn c sel imm s
  | .sub sel imm => subIn c sel imm s
  | .mult sel imm => multIn c sel imm s
  | .div sel imm => divIn c sel imm s
  | .jmp ign ptr => jmpIn c ign ptr s
  | .jmpIfA sel ign ptr => jmpIfAIn c sel ign ptr s
  | .jmpIfB sel ign ptr => jmpIfBIn c sel ign ptr s
  | .push ign imm => pushIn c ign imm s
  | .pop ign => popIn ign s
  | .mov dsel ssel => movIn c dsel ssel s
  | .print sel => printIn c sel s

/-- The meaning of an instruction in the configuration `c`. -/
def execIn (c : Config) (i : Instr) (s : State) : Host.Outcome State Fault Refusal :=
  deliver (ruleIn c i s)

/-- `Step` (R110) in the configuration `c`. -/
def stepIn (c : Config) (s : State) : Host.Outcome State Fault Refusal :=
  match fetchInstr c s with
  | .ok i => execIn c i s
  | .error f => .fault f

end Sys2Proof.Machine
end

