-- ==== Sys2Proof/Machine/HostOps.lean ====
section
/-! DEFINITION. The six operations by which the host reaches the core (R170 to R178), each atomic and between steps. The
functions take the configuration; this hardware is `Config.hardware`. -/

namespace Sys2Proof.Machine

/-- The host operations (R170). No other exists. -/
inductive HostOp where
  | reset
  | loadRam (image : List Byte)
  | loadRom (image : List Byte)
  | copyRomToRam
  | step
  | observe
  deriving DecidableEq, Repr

/-- The result of a Step (R110). -/
inductive StepResult where
  | ok
  | halted
  | fault (f : Fault)
  deriving DecidableEq, Repr

/-- What Observe returns (R176): A, B, IC and the length of STACK. -/
structure Observation where
  regA : Byte
  regB : Byte
  ic : Nat
  stackLength : Nat
  deriving DecidableEq, Repr

/-- What an operation answers (R170). A Step answers its result, and hands the sink at most one output event (R177). -/
inductive HostReply where
  | done
  | stepped (r : StepResult) (event : Option OutEvent)
  | observed (o : Observation)
  deriving DecidableEq, Repr

/-- LoadRAM (R172): a full bulk overwrite; nothing else changes, IC included. -/
def loadRamIn (c : Config) (image : List Byte) (s : State) : Except Refusal State :=
  if image.length = c.memSize then .ok { s with ram := Memory.ofBytes 0 image }
  else .error (.imageLength image.length)

/-- LoadROM (R173). -/
def loadRomIn (c : Config) (image : List Byte) (s : State) : Except Refusal State :=
  if image.length = c.memSize then .ok { s with rom := Memory.ofBytes 0 image }
  else .error (.imageLength image.length)

/-- CopyRomToRam (R174): the only reader of ROM (R32). -/
def State.copyRomToRam (s : State) : State := { s with ram := s.rom }

/-- Observe (R176). -/
def State.observation (s : State) : Observation :=
  { regA := s.regA, regB := s.regB, ic := s.ic, stackLength := s.stack.length }

/-- The result of a step that answered the state `t`. -/
def resultOf (t : State) : StepResult := if t.report = .halted then .halted else .ok

/-- Step as the host sees it (R110, R116, R175): exactly one result and one next state. After a fault the state is what it
was (R197), and the driver may step again (R117, R179). -/
def stepResultIn (c : Config) (s : State) : Except Refusal (StepResult × State) :=
  match stepIn c s with
  | .next t => .ok (resultOf t, t)
  | .fault f => .ok (.fault f, s)
  | .refused r => .error r

/-- The event that the step from `s` to `t` handed the sink (R177), if any. -/
def newEvent (s t : State) : Option OutEvent := (t.out.drop s.out.length).head?

/-- One host operation: its reply and the state after it (R170). -/
def hostOpIn (c : Config) (op : HostOp) (s : State) : Except Refusal (HostReply × State) :=
  match op with
  | .reset => .ok (.done, State.reset)
  | .loadRam image => do
    let t ← loadRamIn c image s
    .ok (.done, t)
  | .loadRom image => do
    let t ← loadRomIn c image s
    .ok (.done, t)
  | .copyRomToRam => .ok (.done, s.copyRomToRam)
  | .step => do
    let (r, t) ← stepResultIn c s
    .ok (.stepped r (newEvent s t), t)
  | .observe => .ok (.observed s.observation, s)

/-- A sequence of host operations, one at a time (R170, R178): the replies in order, and the state at the end. -/
def hostRunIn (c : Config) : List HostOp → State → Except Refusal (List HostReply × State)
  | [], s => .ok ([], s)
  | op :: ops, s => do
    let (r, t) ← hostOpIn c op s
    let (rs, u) ← hostRunIn c ops t
    .ok (r :: rs, u)

/-- One host operation on this hardware. -/
def hostOp (op : HostOp) (s : State) : Except Refusal (HostReply × State) := hostOpIn Config.hardware op s

end Sys2Proof.Machine
end

