-- ==== Sys2Proof/Safety.lean ====
section
/-! DEFINITION. The invariant of the state, and what a run is and how it ends (R222), in the terms that claims use. -/

namespace Sys2Proof.Machine

/-- STACK holds no more than STACK_DEPTH bytes (R30). -/
def stackFits (c : Config) (s : State) : Bool :=
  match c.stackDepth with
  | none => true
  | some n => decide (s.stack.length ≤ n)

/-- What is true of every state the machine can reach: both arrays canonical and inside MEM_SIZE (R6, R31, R32), IC at
most MEM_SIZE + 1 (R25), STACK within its depth (R30). -/
abbrev State.Inv (c : Config) (s : State) : Prop :=
  s.ram.wf = true ∧ s.ram.within c.memSize = true ∧ s.rom.wf = true ∧ s.rom.within c.memSize = true ∧
    s.ic ≤ c.memSize + 1 ∧ stackFits c s = true

/-- The two states agree on the six items of R20, the whole of what the core's behaviour depends on (R34). -/
abbrev State.SameCore (s t : State) : Prop :=
  s.regA = t.regA ∧ s.regB = t.regB ∧ s.ic = t.ic ∧ s.stack = t.stack ∧ s.ram = t.ram ∧ s.rom = t.rom

/-- How far a run of at most some number of steps got (R222). -/
inductive RunEnd where
  /-- The run ended in Halted: it halted normally. -/
  | halted (s : State)
  /-- The run ended in a fault; `s` is the state before the faulting step, which is also the state after it. -/
  | faulted (f : Fault) (s : State)
  /-- Every step so far was Ok. -/
  | running (s : State)
  /-- The model refused a step; no step of this machine does. -/
  | refused (r : Refusal)
  deriving DecidableEq, Repr

/-- The run from a state (R222): Steps up to and including the first whose result is not Ok, at most `n` of them. -/
def runFor : Nat → State → RunEnd
  | 0, s => .running s
  | n + 1, s =>
    match step s with
    | .next t => if t.report = .halted then .halted t else runFor n t
    | .fault f => .faulted f s
    | .refused r => .refused r

/-- The run halts normally (R222). -/
def HaltsNormally (s : State) : Prop := ∃ n t, runFor n s = .halted t

/-- The run faults (R222). -/
def RunFaults (s : State) : Prop := ∃ n f t, runFor n s = .faulted f t

/-- The run diverges (R222): no step of it has a result other than Ok. -/
def Diverges (s : State) : Prop := ∀ n, ∃ t, runFor n s = .running t

/-- The run from a state never goes wrong (R207, R222). -/
def SafeRun (s : State) : Prop := ¬ RunFaults s

end Sys2Proof.Machine
end

