-- ==== Sys2Proof/Certificates/Slice0/Obligations.lean ====
section
/-! DEFINITION. The statements for the provers, each from the numbered rules of spec/. Sizes and addresses are written as
numbers (65535 is MEM_SIZE, R6), so that a statement does not lean on the model's own constants. In every next state,
`report := .ok` and `report := .halted` say the result that the step hands to its caller (R110, R113, R164); that a field
of State holds it is the model's choice (log entry 1). An equation with `{ s with … }` is also the instruction's frame:
every register, STACK, every byte of RAM and ROM and OUT are as before unless the equation names them. The rules of spec/ that
carry its mark `[decision: … D<n>]` are its numbered rules all the same, and are stated as such; where a rule carries its mark
`[derived: …]` the docstring says so. -/

open Sys2Proof Sys2Proof.Machine

/-! ### Reset, decoding, fetch -/

/-- R35, R210: what Reset leaves, and that a step with nothing loaded reports Halted. -/
def Obligations.ResetLeavesTheSpecValues : Prop :=
  State.reset.regA = 0 ∧ State.reset.regB = 0 ∧ State.reset.ic = 0 ∧ State.reset.stack = [] ∧ State.reset.out = [] ∧
    (∀ a : Nat, a < 65535 → State.reset.ram.read a = 0x00 ∧ State.reset.rom.read a = 0x00) ∧
    step State.reset = .next { State.reset with report := .halted }

/-- Reset meets the invariant in every configuration. -/
def Obligations.ResetMeetsTheInvariant : Prop := ∀ c : Config, State.reset.Inv c

/-- R83, R87: words written out from the format tables, each of the seven formats of R82 among them. -/
def Obligations.WordsOfTheFormatTablesDecode : Prop :=
  decode [0x00] = .ok .halt ∧ decode [0x01, 0x02, 0x10] = .ok (.add 2 16) ∧
    decode [0x05, 0x77, 0x04] = .ok (.jmp 0x77 4) ∧ decode [0x06, 0x01, 0x55, 0x04] = .ok (.jmpIfA 1 0x55 4) ∧
    decode [0x08, 0x99, 0x2A] = .ok (.push 0x99 42) ∧ decode [0x09, 0x99] = .ok (.pop 0x99) ∧
    decode [0x0A, 0x02, 0x01] = .ok (.mov 2 1) ∧ decode [0x0B, 0x02] = .ok (.print 2) ∧ decode [0x0C] = .error (.invalidOpcode 0x0C)

/-- Decode and encode agree, for every list of bytes: a list decodes to an instruction exactly when it begins with that
instruction's encoding. -/
def Obligations.DecodeIsTheInverseOfEncode : Prop :=
  ∀ (bs : List Byte) (i : Instr), decode bs = .ok i ↔ ∃ rest, bs = encode i ++ rest

/-- R87, R88, and R89 (the spec's own inference, marked derived): the opcode byte alone says whether a byte string is illegal, and 0x0C..0xFF are. -/
def Obligations.DecodeRefusesExactlyTheIllegalOpcodes : Prop :=
  ∀ (opc : Byte) (rest : List Byte), decode (opc :: rest) = .error (.invalidOpcode opc) ↔ 12 ≤ opc.toNat

/-- A step runs the instruction that the bytes at IC decode to, and nothing is added around it. -/
def Obligations.StepRunsTheDecodedInstruction : Prop :=
  ∀ (s : State) (i : Instr), s.ic < 65535 →
    decode [s.ram.read s.ic, s.ram.read (s.ic + 1), s.ram.read (s.ic + 2), s.ram.read (s.ic + 3)] = .ok i →
    step s = exec i s

/-- A step runs the instruction whose encoding lies in RAM at IC. -/
def Obligations.StepRunsTheEncodedInstruction : Prop :=
  ∀ (s : State) (i : Instr), s.ic < 65535 →
    (∀ (k : Nat) (h : k < (encode i).length), s.ram.read (s.ic + k) = (encode i)[k]) → step s = exec i s

/-- Placing an instruction where the next step fetches makes that step run it, and changes RAM nowhere else. -/
def Obligations.PlacedInstructionIsRun : Prop :=
  ∀ (s : State) (nbits w : Nat) (i : Instr), s.ram.wf = true → s.ic + 3 < 65535 →
    decodeTableWord nbits w = some i →
    step (s.withFetchWord nbits w) = exec i (s.withFetchWord nbits w) ∧
      s.withFetchWord nbits w = { s with ram := (s.withFetchWord nbits w).ram } ∧
      ∀ a : Nat, (a < s.ic ∨ s.ic + 4 ≤ a) → (s.withFetchWord nbits w).ram.read a = s.ram.read a

/-- R111: a fetch outside RAM faults with the address. -/
def Obligations.FetchOutsideRamFaults : Prop :=
  ∀ s : State, 65535 ≤ s.ic → step s = .fault (.addressOutOfRange s.ic)

/-- R88, R193: an opcode byte in 0x0C..0xFF raises InvalidOpcode and changes nothing. -/
def Obligations.IllegalOpcodeFaults : Prop :=
  ∀ s : State, s.ic < 65535 → 12 ≤ (s.ram.read s.ic).toNat →
    step s = .fault (.invalidOpcode s.ic (s.ram.read s.ic)) ∧
      stepResultIn Config.hardware s = .ok (.fault (.invalidOpcode s.ic (s.ram.read s.ic)), s)

/-! ### Selectors and arithmetic -/

/-- R115: the selector byte 1 is A, 2 is B, any other value faults, and the byte's address is checked first. -/
def Obligations.SelectorDecoding : Prop :=
  ∀ (addr : Nat) (b : Byte),
    (65535 ≤ addr → decodeSel Config.hardware addr b = .error (.addressOutOfRange addr)) ∧
    (addr < 65535 →
      (b = 1 → decodeSel Config.hardware addr b = .ok .a) ∧ (b = 2 → decodeSel Config.hardware addr b = .ok .b) ∧
      (b ≠ 1 → b ≠ 2 → decodeSel Config.hardware addr b = .error (.invalidRegisterSelector addr b)))

/-- The faults that the four arithmetic instructions share, in the order they are tested (R139). -/
def Sys2Proof.Machine.SelectorThenByteFaults (i : Byte → Byte → Instr) (s : State) (sel imm : Byte) : Prop :=
  (65535 ≤ s.ic + 1 → exec (i sel imm) s = .fault (.addressOutOfRange (s.ic + 1))) ∧
  (s.ic + 1 < 65535 → sel ≠ 1 → sel ≠ 2 → exec (i sel imm) s = .fault (.invalidRegisterSelector (s.ic + 1) sel)) ∧
  (s.ic + 1 < 65535 → 65535 ≤ s.ic + 2 → (sel = 1 ∨ sel = 2) →
    exec (i sel imm) s = .fault (.addressOutOfRange (s.ic + 2)))

/-- R131 (ADD): encoding, result, faults in order, and the round trip with SUB. -/
def Obligations.AddWritesTheSumToA : Prop :=
  ∀ (s : State) (sel imm : Byte),
    (∀ rest, decode (0x01 :: sel :: imm :: rest) = .ok (.add sel imm)) ∧
    (s.ic + 2 < 65535 →
      exec (.add 1 imm) s =
        .next { s with regA := BitVec.ofNat 8 ((s.regA.toNat + imm.toNat) % 256), ic := s.ic + 3, report := .ok } ∧
      exec (.add 2 imm) s =
        .next { s with regA := BitVec.ofNat 8 ((s.regB.toNat + imm.toNat) % 256), ic := s.ic + 3, report := .ok }) ∧
    SelectorThenByteFaults .add s sel imm ∧
    (∀ t u, exec (.add 1 imm) s = .next t → exec (.sub 1 imm) t = .next u → u.regA = s.regA)

/-- R132 (SUB): encoding, result (source register minus immediate, with the borrow), faults in order. -/
def Obligations.SubWritesTheDifferenceToA : Prop :=
  ∀ (s : State) (sel imm : Byte),
    (∀ rest, decode (0x02 :: sel :: imm :: rest) = .ok (.sub sel imm)) ∧
    (s.ic + 2 < 65535 →
      exec (.sub 1 imm) s =
        .next { s with
          regA := BitVec.ofNat 8 (if imm.toNat ≤ s.regA.toNat then s.regA.toNat - imm.toNat
            else s.regA.toNat + 256 - imm.toNat)
          ic := s.ic + 3
          report := .ok } ∧
      exec (.sub 2 imm) s =
        .next { s with
          regA := BitVec.ofNat 8 (if imm.toNat ≤ s.regB.toNat then s.regB.toNat - imm.toNat
            else s.regB.toNat + 256 - imm.toNat)
          ic := s.ic + 3
          report := .ok }) ∧
    SelectorThenByteFaults .sub s sel imm

/-- R133 (MULT): encoding, result, faults in order. -/
def Obligations.MultWritesTheLowProductToA : Prop :=
  ∀ (s : State) (sel imm : Byte),
    (∀ rest, decode (0x03 :: sel :: imm :: rest) = .ok (.mult sel imm)) ∧
    (s.ic + 2 < 65535 →
      exec (.mult 1 imm) s =
        .next { s with regA := BitVec.ofNat 8 ((s.regA.toNat * imm.toNat) % 256), ic := s.ic + 3, report := .ok } ∧
      exec (.mult 2 imm) s =
        .next { s with regA := BitVec.ofNat 8 ((s.regB.toNat * imm.toNat) % 256), ic := s.ic + 3, report := .ok }) ∧
    SelectorThenByteFaults .mult s sel imm

/-- R134 (DIV): encoding, quotient, faults in order with the zero divisor last. The second clause names the quotient by
what it is: `q * imm ≤ x < (q + 1) * imm`. The last says that the fault never mutates A (or anything else). -/
def Obligations.DivWritesTheFloorQuotientToA : Prop :=
  ∀ (s : State) (sel imm : Byte),
    (∀ rest, decode (0x04 :: sel :: imm :: rest) = .ok (.div sel imm)) ∧
    (s.ic + 2 < 65535 → imm ≠ 0 →
      (∃ q : Byte, exec (.div 1 imm) s = .next { s with regA := q, ic := s.ic + 3, report := .ok } ∧
        q.toNat * imm.toNat ≤ s.regA.toNat ∧ s.regA.toNat < (q.toNat + 1) * imm.toNat) ∧
      (∃ q : Byte, exec (.div 2 imm) s = .next { s with regA := q, ic := s.ic + 3, report := .ok } ∧
        q.toNat * imm.toNat ≤ s.regB.toNat ∧ s.regB.toNat < (q.toNat + 1) * imm.toNat)) ∧
    SelectorThenByteFaults .div s sel imm ∧
    (s.ic + 2 < 65535 → imm = 0 → (sel = 1 ∨ sel = 2) → exec (.div sel imm) s = .fault .divisionByZero) ∧
    (∀ t, stepResultIn Config.hardware s = .ok (.fault .divisionByZero, t) → t = s)

/-! ### Jumps -/

/-- R140 (JMP): encoding, the pointer-through-memory target, the one fault. -/
def Obligations.JmpGoesThroughMemory : Prop :=
  ∀ (s : State) (ign ptr : Byte),
    (∀ rest, decode (0x05 :: ign :: ptr :: rest) = .ok (.jmp ign ptr)) ∧
    (s.ic + 2 < 65535 →
      exec (.jmp ign ptr) s = .next { s with ic := (s.ram.read ptr.toNat).toNat, report := .ok }) ∧
    (65535 ≤ s.ic + 2 → exec (.jmp ign ptr) s = .fault (.addressOutOfRange (s.ic + 2)))

/-- R142 (JMP_IF_A): encoding; not taken when A ≠ 0, taken when A = 0; the faults in order. -/
def Obligations.JmpIfATestsAForZero : Prop :=
  ∀ (s : State) (sel ign ptr : Byte),
    (∀ rest, decode (0x06 :: sel :: ign :: ptr :: rest) = .ok (.jmpIfA sel ign ptr)) ∧
    (s.ic + 1 < 65535 → s.regA ≠ 0 →
      exec (.jmpIfA 1 ign ptr) s = .next { s with ic := s.ic + 3, report := .ok }) ∧
    (s.ic + 3 < 65535 → s.regA = 0 →
      exec (.jmpIfA 1 ign ptr) s = .next { s with ic := (s.ram.read ptr.toNat).toNat, report := .ok }) ∧
    (65535 ≤ s.ic + 1 → exec (.jmpIfA sel ign ptr) s = .fault (.addressOutOfRange (s.ic + 1))) ∧
    (s.ic + 1 < 65535 → sel ≠ 1 → sel ≠ 2 →
      exec (.jmpIfA sel ign ptr) s = .fault (.invalidRegisterSelector (s.ic + 1) sel)) ∧
    (s.ic + 1 < 65535 → exec (.jmpIfA 2 ign ptr) s = .fault (.registerSelectorMismatch (s.ic + 1) .b)) ∧
    (s.ic + 1 < 65535 → 65535 ≤ s.ic + 3 → s.regA = 0 →
      exec (.jmpIfA 1 ign ptr) s = .fault (.addressOutOfRange (s.ic + 3)))

/-- R143 (JMP_IF_B): the same with register B and selector 2. -/
def Obligations.JmpIfBTestsBForZero : Prop :=
  ∀ (s : State) (sel ign ptr : Byte),
    (∀ rest, decode (0x07 :: sel :: ign :: ptr :: rest) = .ok (.jmpIfB sel ign ptr)) ∧
    (s.ic + 1 < 65535 → s.regB ≠ 0 →
      exec (.jmpIfB 2 ign ptr) s = .next { s with ic := s.ic + 3, report := .ok }) ∧
    (s.ic + 3 < 65535 → s.regB = 0 →
      exec (.jmpIfB 2 ign ptr) s = .next { s with ic := (s.ram.read ptr.toNat).toNat, report := .ok }) ∧
    (65535 ≤ s.ic + 1 → exec (.jmpIfB sel ign ptr) s = .fault (.addressOutOfRange (s.ic + 1))) ∧
    (s.ic + 1 < 65535 → sel ≠ 1 → sel ≠ 2 →
      exec (.jmpIfB sel ign ptr) s = .fault (.invalidRegisterSelector (s.ic + 1) sel)) ∧
    (s.ic + 1 < 65535 → exec (.jmpIfB 1 ign ptr) s = .fault (.registerSelectorMismatch (s.ic + 1) .a)) ∧
    (s.ic + 1 < 65535 → 65535 ≤ s.ic + 3 → s.regB = 0 →
      exec (.jmpIfB 2 ign ptr) s = .fault (.addressOutOfRange (s.ic + 3)))

/-- R91 (the spec's own inference, marked derived): the byte at O+3 is the pointer byte when the jump is taken and the next opcode when it is not. -/
def Obligations.ConditionalJumpSharesItsLastByte : Prop :=
  ∀ (s : State) (r : Reg), s.ic + 3 < 65535 →
    (r = .a ∧ s.ram.read s.ic = 0x06 ∧ s.ram.read (s.ic + 1) = 1 ∨
      r = .b ∧ s.ram.read s.ic = 0x07 ∧ s.ram.read (s.ic + 1) = 2) →
    (s.reg r = 0 →
      step s = .next { s with ic := (s.ram.read (s.ram.read (s.ic + 3)).toNat).toNat, report := .ok }) ∧
    (s.reg r ≠ 0 →
      ∃ t, step s = .next t ∧ t = { s with ic := s.ic + 3, report := .ok } ∧
        (fetchWindow t).head? = some (s.ram.read (s.ic + 3)))

/-- §8 of the source (95_test_vectors.md S6): a taken conditional jump is a JMP whose opcode is one byte further on. -/
def Obligations.TakenConditionalJumpIsAJmp : Prop :=
  ∀ (s : State) (ign ign' ptr : Byte), s.ic + 1 < 65535 →
    (s.regA = 0 → exec (.jmpIfA 1 ign ptr) s = exec (.jmp ign' ptr) { s with ic := s.ic + 1 }) ∧
    (s.regB = 0 → exec (.jmpIfB 2 ign ptr) s = exec (.jmp ign' ptr) { s with ic := s.ic + 1 })

/-- R145 (the spec's own inference, marked derived): after a step that ran a jump and did not fall through, IC is in 0..255. -/
def Obligations.TakenJumpsReachOnlyTheFirstPage : Prop :=
  ∀ s t : State, step s = .next t →
    (s.ram.read s.ic = 0x05 ∨ s.ram.read s.ic = 0x06 ∧ s.regA = 0 ∨ s.ram.read s.ic = 0x07 ∧ s.regB = 0) →
    t.ic ≤ 255

/-! ### STACK -/

/-- R150, R151 (PUSH): encoding; result; the address is checked before the depth; a full STACK of finite depth faults. The
first four clauses hold for every value of the parameters, the last is this hardware. -/
def Obligations.PushAppendsTheImmediate : Prop :=
  ∀ (c : Config) (s : State) (ign imm : Byte),
    (∀ rest, decode (0x08 :: ign :: imm :: rest) = .ok (.push ign imm)) ∧
    (c.memSize ≤ s.ic + 2 → execIn c (.push ign imm) s = .fault (.addressOutOfRange (s.ic + 2))) ∧
    (s.ic + 2 < c.memSize → c.stackDepth = some s.stack.length →
      execIn c (.push ign imm) s = .fault .stackOverflow) ∧
    (s.ic + 2 < c.memSize → c.stackDepth ≠ some s.stack.length →
      execIn c (.push ign imm) s = .next { s with stack := s.stack ++ [imm], ic := s.ic + 3, report := .ok }) ∧
    (s.ic + 2 < 65535 →
      exec (.push ign imm) s = .next { s with stack := s.stack ++ [imm], ic := s.ic + 3, report := .ok }) ∧
    (65535 ≤ s.ic + 2 → exec (.push ign imm) s = .fault (.addressOutOfRange (s.ic + 2)))

/-- R152 (POP): encoding; the top is discarded; the one fault; at the last address of RAM it completes. -/
def Obligations.PopDiscardsTheTop : Prop :=
  ∀ (s : State) (ign v : Byte) (below : List Byte),
    (∀ rest, decode (0x09 :: ign :: rest) = .ok (.pop ign)) ∧
    (s.stack = below ++ [v] → exec (.pop ign) s = .next { s with stack := below, ic := s.ic + 2, report := .ok }) ∧
    (s.stack = [] → exec (.pop ign) s = .fault .stackUnderflow) ∧
    (s.stack = below ++ [v] → s.ic = 65534 → s.ram.read 65534 = 0x09 →
      ∃ t, step s = .next t ∧ t = { s with stack := below, ic := 65536, report := .ok } ∧
        step t = .fault (.addressOutOfRange 65536))

/-- R153 (the spec's own inference, marked derived): a PUSH and then a POP leave STACK, and all else but IC, as it was. -/
def Obligations.PushThenPopRestoresTheStack : Prop :=
  ∀ (s : State) (ign ign' v : Byte), s.ic + 2 < 65535 →
    ∃ t, exec (.push ign v) s = .next t ∧ t.stack = s.stack ++ [v] ∧
      exec (.pop ign') t = .next { s with ic := s.ic + 5, report := .ok }

/-! ### MOV, PRINT, HALT -/

/-- R160 (MOV): encoding; the four register forms; the faults in order; no other instruction can write B. -/
def Obligations.MovCopiesARegister : Prop :=
  ∀ (s : State) (dsel ssel : Byte),
    (∀ rest, decode (0x0A :: dsel :: ssel :: rest) = .ok (.mov dsel ssel)) ∧
    (s.ic + 2 < 65535 →
      exec (.mov 1 1) s = .next { s with ic := s.ic + 3, report := .ok } ∧
      exec (.mov 1 2) s = .next { s with regA := s.regB, ic := s.ic + 3, report := .ok } ∧
      exec (.mov 2 1) s = .next { s with regB := s.regA, ic := s.ic + 3, report := .ok } ∧
      exec (.mov 2 2) s = .next { s with ic := s.ic + 3, report := .ok }) ∧
    (65535 ≤ s.ic + 1 → exec (.mov dsel ssel) s = .fault (.addressOutOfRange (s.ic + 1))) ∧
    (s.ic + 1 < 65535 → dsel ≠ 1 → dsel ≠ 2 →
      exec (.mov dsel ssel) s = .fault (.invalidRegisterSelector (s.ic + 1) dsel)) ∧
    (s.ic + 1 < 65535 → 65535 ≤ s.ic + 2 → (dsel = 1 ∨ dsel = 2) →
      exec (.mov dsel ssel) s = .fault (.addressOutOfRange (s.ic + 2))) ∧
    (s.ic + 2 < 65535 → (dsel = 1 ∨ dsel = 2) → ssel ≠ 1 → ssel ≠ 2 →
      exec (.mov dsel ssel) s = .fault (.invalidRegisterSelector (s.ic + 2) ssel)) ∧
    (∀ i t, exec i s = .next t → t.regB ≠ s.regB → ∃ x y, i = .mov x y)

/-- R162 (PRINT): encoding; the event; the faults in order. -/
def Obligations.PrintEmitsTheRegister : Prop :=
  ∀ (s : State) (sel : Byte),
    (∀ rest, decode (0x0B :: sel :: rest) = .ok (.print sel)) ∧
    (s.ic + 1 < 65535 →
      exec (.print 1) s =
        .next { s with out := s.out ++ [{ reg := .a, value := s.regA }], ic := s.ic + 2, report := .ok } ∧
      exec (.print 2) s =
        .next { s with out := s.out ++ [{ reg := .b, value := s.regB }], ic := s.ic + 2, report := .ok }) ∧
    (65535 ≤ s.ic + 1 → exec (.print sel) s = .fault (.addressOutOfRange (s.ic + 1))) ∧
    (s.ic + 1 < 65535 → sel ≠ 1 → sel ≠ 2 →
      exec (.print sel) s = .fault (.invalidRegisterSelector (s.ic + 1) sel))

/-- R164 (HALT): encoding; nothing is written and the result is Halted; a further step reports Halted again; every
byte the host never loaded is a HALT. -/
def Obligations.HaltWritesNothingAndReportsHalted : Prop :=
  ∀ s : State,
    (∀ rest, decode (0x00 :: rest) = .ok .halt) ∧
    exec .halt s = .next { s with report := .halted } ∧
    (s.ic < 65535 → s.ram.read s.ic = 0x00 →
      stepResultIn Config.hardware s = .ok (.halted, { s with report := .halted }) ∧
        step { s with report := .halted } = .next { s with report := .halted }) ∧
    (∀ (a : Nat) (rest : List Byte), a < 65535 → decode (State.reset.ram.read a :: rest) = .ok .halt)

/-- R166: with LEGACY_PLACEHOLDERS, MOV and PRINT raise Unimplemented whatever their operands, and without it they never
do. -/
def Obligations.LegacyPlaceholdersRaiseUnimplemented : Prop :=
  ∀ (c : Config) (s : State) (x y : Byte),
    (c.legacyPlaceholders = true →
      execIn c (.mov x y) s = .fault (.unimplemented s.ic 0x0A) ∧
        execIn c (.print x) s = .fault (.unimplemented s.ic 0x0B)) ∧
    (c.legacyPlaceholders = false → ∀ (i : Instr) (o : Nat) (opc : Byte), execIn c i s ≠ .fault (.unimplemented o opc))

/-! ### Faults -/

/-- R196 (the spec's own inference, marked derived): the faults each instruction may raise, with the addresses they carry, and no other. -/
def Obligations.OnlyTheListedFaultsAreRaised : Prop :=
  ∀ (i : Instr) (s : State) (f : Fault), exec i s = .fault f →
    match i with
    | .halt => False
    | .add sel _ | .sub sel _ | .mult sel _ =>
      f = .invalidRegisterSelector (s.ic + 1) sel ∨ f = .addressOutOfRange (s.ic + 1) ∨ f = .addressOutOfRange (s.ic + 2)
    | .div sel _ =>
      f = .invalidRegisterSelector (s.ic + 1) sel ∨ f = .divisionByZero ∨ f = .addressOutOfRange (s.ic + 1) ∨
        f = .addressOutOfRange (s.ic + 2)
    | .jmp _ _ => f = .addressOutOfRange (s.ic + 2)
    | .jmpIfA sel _ _ =>
      f = .invalidRegisterSelector (s.ic + 1) sel ∨ f = .registerSelectorMismatch (s.ic + 1) .b ∨
        f = .addressOutOfRange (s.ic + 1) ∨ f = .addressOutOfRange (s.ic + 3) ∧ s.regA = 0
    | .jmpIfB sel _ _ =>
      f = .invalidRegisterSelector (s.ic + 1) sel ∨ f = .registerSelectorMismatch (s.ic + 1) .a ∨
        f = .addressOutOfRange (s.ic + 1) ∨ f = .addressOutOfRange (s.ic + 3) ∧ s.regB = 0
    | .push _ _ => f = .addressOutOfRange (s.ic + 2)
    | .pop _ => f = .stackUnderflow
    | .mov dsel ssel =>
      f = .invalidRegisterSelector (s.ic + 1) dsel ∨ f = .invalidRegisterSelector (s.ic + 2) ssel ∨
        f = .addressOutOfRange (s.ic + 1) ∨ f = .addressOutOfRange (s.ic + 2)
    | .print sel => f = .invalidRegisterSelector (s.ic + 1) sel ∨ f = .addressOutOfRange (s.ic + 1)

/-- R187: who raises InvalidRegisterSelector, and when. -/
def Obligations.InvalidSelectorIsRaisedExactlyThen : Prop :=
  ∀ (i : Instr) (s : State) (addr : Nat) (b : Byte),
    exec i s = .fault (.invalidRegisterSelector addr b) ↔
      b ≠ 1 ∧ b ≠ 2 ∧ addr < 65535 ∧
        (addr = s.ic + 1 ∧
            ((∃ imm, i = .add b imm ∨ i = .sub b imm ∨ i = .mult b imm ∨ i = .div b imm) ∨
              (∃ ign ptr, i = .jmpIfA b ign ptr ∨ i = .jmpIfB b ign ptr) ∨ (∃ ssel, i = .mov b ssel) ∨ i = .print b) ∨
          addr = s.ic + 2 ∧ ∃ dsel, (dsel = 1 ∨ dsel = 2) ∧ i = .mov dsel b)

/-- R188: who raises RegisterSelectorMismatch, and when. -/
def Obligations.MismatchIsRaisedExactlyThen : Prop :=
  ∀ (i : Instr) (s : State) (addr : Nat) (r : Reg),
    exec i s = .fault (.registerSelectorMismatch addr r) ↔
      addr < 65535 ∧ addr = s.ic + 1 ∧
        ((∃ ign ptr, i = .jmpIfA 2 ign ptr ∧ r = .b) ∨ (∃ ign ptr, i = .jmpIfB 1 ign ptr ∧ r = .a))

/-- R189: who raises DivisionByZero, and when; register A is never mutated by it. -/
def Obligations.DivisionByZeroIsRaisedExactlyThen : Prop :=
  (∀ (i : Instr) (s : State),
    exec i s = .fault .divisionByZero ↔
      s.ic + 2 < 65535 ∧ ∃ sel imm, (sel = 1 ∨ sel = 2) ∧ imm = 0 ∧ i = .div sel imm) ∧
  (∀ s t : State, stepResultIn Config.hardware s = .ok (.fault .divisionByZero, t) → t = s)

/-- R190: who raises StackUnderflow, and when. -/
def Obligations.StackUnderflowIsRaisedExactlyThen : Prop :=
  ∀ (i : Instr) (s : State), exec i s = .fault .stackUnderflow ↔ s.stack = [] ∧ ∃ ign, i = .pop ign

/-- R194: who raises StackOverflow, and when, at every value of the parameters; this hardware never does. -/
def Obligations.StackOverflowIsRaisedExactlyThen : Prop :=
  (∀ (c : Config) (i : Instr) (s : State),
    execIn c i s = .fault .stackOverflow ↔
      s.ic + 2 < c.memSize ∧ c.stackDepth = some s.stack.length ∧ ∃ ign imm, i = .push ign imm) ∧
  (∀ s : State, step s ≠ .fault .stackOverflow)

/-- R191: where AddressOutOfRange can come from: the fetch, or an operand of an opcode at 65532..65534. -/
def Obligations.AddressFaultsComeFromTheEndOfRam : Prop :=
  ∀ (s : State) (addr : Nat), step s = .fault (.addressOutOfRange addr) →
    65535 ≤ s.ic ∧ addr = s.ic ∨ 65532 ≤ s.ic ∧ s.ic ≤ 65534 ∧ 65535 ≤ addr ∧ addr ≤ s.ic + 3

/-- R185: the numeric codes. -/
def Obligations.FaultCodesAreTheListedOnes : Prop :=
  ∀ (n : Nat) (r : Reg) (b : Byte),
    (Fault.invalidRegisterSelector n b).code = 1 ∧ (Fault.registerSelectorMismatch n r).code = 2 ∧
      Fault.divisionByZero.code = 3 ∧ Fault.stackUnderflow.code = 4 ∧ (Fault.addressOutOfRange n).code = 5 ∧
      (Fault.unimplemented n b).code = 6 ∧ (Fault.invalidOpcode n b).code = 7 ∧ Fault.stackOverflow.code = 8

/-- R117 (the spec's own inference, marked derived) and R197: a step that halts or faults changes nothing, and stepping again gives the same result again. -/
def Obligations.HaltedAndFaultedStepsChangeNothingAndRepeat : Prop :=
  ∀ (c : Config) (s t : State) (r : StepResult), stepResultIn c s = .ok (r, t) → r ≠ .ok →
    t.SameCore s ∧ t.out = s.out ∧ stepResultIn c t = .ok (r, t)

/-- R116 (the spec's own inference, marked derived): every state has a result, a step is never refused, and ROM is irrelevant to it. -/
def Obligations.StepIsTotalAndIgnoresRom : Prop :=
  ∀ (s : State) (m : Memory),
    (∃ t, step s = .next t ∧ step { s with rom := m } = .next { t with rom := m }) ∨
    (∃ f, step s = .fault f ∧ step { s with rom := m } = .fault f)

/-! ### The whole machine -/

/-- The configured machine at this hardware's parameters is the machine: statements about `execIn`, `stepIn` and the host
operations speak of `exec` and `step`. -/
def Obligations.ConfiguredMachineAtHardwareIsTheMachine : Prop :=
  (∀ (i : Instr) (s : State), execIn Config.hardware i s = exec i s) ∧
    ∀ s : State, stepIn Config.hardware s = step s

/-- R57 (the spec's own inference, marked derived): RAM changes only by LoadRAM, CopyRomToRam and Reset, ROM only by LoadROM and Reset; a Step changes neither. -/
def Obligations.NoInstructionWritesMemory : Prop :=
  (∀ s t : State, step s = .next t → ∀ a : Nat, t.ram.read a = s.ram.read a ∧ t.rom.read a = s.rom.read a) ∧
  (∀ (op : HostOp) (s t : State) (r : HostReply), hostOp op s = .ok (r, t) →
    (t.ram ≠ s.ram → op = .reset ∨ op = .copyRomToRam ∨ ∃ image, op = .loadRam image) ∧
    (t.rom ≠ s.rom → op = .reset ∨ ∃ image, op = .loadRom image))

/-- R21, R22, R23: a step changes B only by MOV with destination 2, and A only by the arithmetic instructions and by MOV
with destination 1. -/
def Obligations.RegistersAreWrittenOnlyByTheirWriters : Prop :=
  ∀ s t : State, step s = .next t →
    (t.regB ≠ s.regB → s.ram.read s.ic = 0x0A ∧ s.ram.read (s.ic + 1) = 2 ∧ t.regB = s.regA) ∧
    (t.regA ≠ s.regA → (1 ≤ (s.ram.read s.ic).toNat ∧ (s.ram.read s.ic).toNat ≤ 4) ∨
      (s.ram.read s.ic = 0x0A ∧ s.ram.read (s.ic + 1) = 1 ∧ t.regA = s.regB))

/-- R29, R33, R163: a step changes STACK only by PUSH (one byte more) and POP (one byte less), and OUT only by PRINT, by
exactly one event, which carries the value of the register that the selector byte names. -/
def Obligations.StackAndOutputChangeOnlyByTheirInstructions : Prop :=
  ∀ s t : State, step s = .next t →
    t.stack = (if s.ram.read s.ic = 0x08 then s.stack ++ [s.ram.read (s.ic + 2)]
      else if s.ram.read s.ic = 0x09 then s.stack.dropLast else s.stack) ∧
    (s.ram.read s.ic = 0x0B → ∃ r : Reg, (s.ram.read (s.ic + 1)).toNat = r.id ∧
      t.out = s.out ++ [{ reg := r, value := s.reg r }]) ∧
    (s.ram.read s.ic ≠ 0x0B → t.out = s.out)

/-- R26 (the spec's own inference, marked derived): how every step leaves IC, as a function of the opcode address and of RAM; a step on HALT reports Halted. -/
def Obligations.InstructionPointerAfterEveryStep : Prop :=
  (∀ s t : State, step s = .next t →
    t.ic =
      if s.ram.read s.ic = 0x00 then s.ic
      else if s.ram.read s.ic = 0x05 then (s.ram.read (s.ram.read (s.ic + 2)).toNat).toNat
      else if s.ram.read s.ic = 0x06 ∧ s.regA = 0 ∨ s.ram.read s.ic = 0x07 ∧ s.regB = 0 then
        (s.ram.read (s.ram.read (s.ic + 3)).toNat).toNat
      else if s.ram.read s.ic = 0x09 ∨ s.ram.read s.ic = 0x0B then s.ic + 2
      else s.ic + 3) ∧
  (∀ s t : State, step s = .next t → s.ram.read s.ic = 0x00 → resultOf t = .halted) ∧
  (∀ (s t : State) (f : Fault), stepResultIn Config.hardware s = .ok (.fault f, t) → t.ic = s.ic)

/-- R86: the ignored byte of PUSH, POP, JMP and the conditional jumps has no effect, unless a jump that is taken names it by
its pointer. A conditional jump that is not taken, or that faults on its selector, uses no pointer: nothing is asked of it. -/
def Obligations.IgnoredBytesHaveNoEffect : Prop :=
  ∀ (s : State) (k : Nat) (v : Byte), s.ram.wf = true →
    (k = 1 ∧ (s.ram.read s.ic = 0x08 ∨ s.ram.read s.ic = 0x09) ∨
      k = 1 ∧ s.ram.read s.ic = 0x05 ∧ (s.ram.read (s.ic + 2)).toNat ≠ s.ic + 1 ∨
      k = 2 ∧ s.ram.read s.ic = 0x06 ∧
        (s.ram.read (s.ic + 1) = 1 → s.regA = 0 → (s.ram.read (s.ic + 3)).toNat ≠ s.ic + 2) ∨
      k = 2 ∧ s.ram.read s.ic = 0x07 ∧
        (s.ram.read (s.ic + 1) = 2 → s.regB = 0 → (s.ram.read (s.ic + 3)).toNat ≠ s.ic + 2)) →
    (∀ t, step s = .next t →
      step { s with ram := s.ram.write (s.ic + k) v } = .next { t with ram := s.ram.write (s.ic + k) v }) ∧
    (∀ f, step s = .fault f → step { s with ram := s.ram.write (s.ic + k) v } = .fault f)

/-- The invariant is kept by every step of this hardware. -/
def Obligations.EveryStepKeepsTheInvariant : Prop :=
  ∀ s s' : State, s.Inv Config.hardware → step s = .next s' → s'.Inv Config.hardware ∧ s'.ic ≤ 65536

/-- The invariant is kept by every host operation, Step included, at every value of the parameters: both arrays stay
canonical and inside MEM_SIZE, IC stays at most MEM_SIZE + 1 (R25, the spec's own inference), STACK stays within STACK_DEPTH (R30). -/
def Obligations.EveryHostOperationKeepsTheInvariant : Prop :=
  ∀ (c : Config) (op : HostOp) (r : HostReply) (s t : State), s.Inv c → hostOpIn c op s = .ok (r, t) → t.Inv c

/-- R34 (the spec's own inference, marked derived): two states that agree on the six items of R20 behave identically under every sequence of host operations. -/
def Obligations.SixItemsDetermineAllBehaviour : Prop :=
  ∀ (c : Config) (ops : List HostOp) (s s' : State), s.SameCore s' →
    (∀ rs t, hostRunIn c ops s = .ok (rs, t) → ∃ t', hostRunIn c ops s' = .ok (rs, t') ∧ t.SameCore t') ∧
    (∀ e, hostRunIn c ops s = .error e → hostRunIn c ops s' = .error e)

/-- R222: every run halts normally, faults or diverges, and does only one of the three. -/
def Obligations.EveryRunEndsInExactlyOneWay : Prop :=
  ∀ s : State, (HaltsNormally s ∨ RunFaults s ∨ Diverges s) ∧ ¬ (HaltsNormally s ∧ RunFaults s) ∧
    ¬ (HaltsNormally s ∧ Diverges s) ∧ ¬ (RunFaults s ∧ Diverges s)

/-! ### Host operations -/

/-- R172: LoadRAM replaces every byte of RAM and nothing else; an image of another length cannot be presented. -/
def Obligations.LoadRamReplacesAllOfRam : Prop :=
  ∀ (s : State) (image : List Byte),
    (image.length = 65535 →
      ∃ t, hostOp (.loadRam image) s = .ok (.done, t) ∧ t = { s with ram := t.ram } ∧
        ∀ (a : Nat) (h : a < image.length), t.ram.read a = image[a]) ∧
    (image.length ≠ 65535 → ∀ r t, hostOp (.loadRam image) s ≠ .ok (r, t))

/-- R173: LoadROM replaces every byte of ROM and nothing else, and has no effect on any later step: however many Steps the
host invokes, faulting and halted ones included, they answer alike with the load and without it, and leave the same state
but for ROM. -/
def Obligations.LoadRomReplacesAllOfRom : Prop :=
  ∀ (s : State) (image : List Byte),
    (image.length = 65535 →
      ∃ t, hostOp (.loadRom image) s = .ok (.done, t) ∧ t = { s with rom := t.rom } ∧
        (∀ (a : Nat) (h : a < image.length), t.rom.read a = image[a]) ∧
        (∀ u, step s = .next u → step t = .next { u with rom := t.rom }) ∧
        (∀ f, step s = .fault f → step t = .fault f) ∧
        (∀ k : Nat, ∃ rs u, hostRunIn Config.hardware (List.replicate k .step) s = .ok (rs, u) ∧
          hostRunIn Config.hardware (List.replicate k .step) t = .ok (rs, { u with rom := t.rom }))) ∧
    (image.length ≠ 65535 → ∀ r t, hostOp (.loadRom image) s ≠ .ok (r, t))

/-- R171, R174, R176: Reset puts every item at its reset value, CopyRomToRam copies every byte and changes nothing else,
Observe answers A, B, IC and the length of STACK and changes nothing. -/
def Obligations.ResetCopyAndObserve : Prop :=
  ∀ s : State,
    (∃ t, hostOp .reset s = .ok (.done, t) ∧ t.regA = 0 ∧ t.regB = 0 ∧ t.ic = 0 ∧ t.stack = [] ∧ t.out = [] ∧
      ∀ a : Nat, a < 65535 → t.ram.read a = 0x00 ∧ t.rom.read a = 0x00) ∧
    (∃ t, hostOp .copyRomToRam s = .ok (.done, t) ∧ t = { s with ram := t.ram } ∧
      ∀ a : Nat, a < 65535 → t.ram.read a = s.rom.read a) ∧
    hostOp .observe s =
      .ok (.observed { regA := s.regA, regB := s.regB, ic := s.ic, stackLength := s.stack.length }, s)

/-- R175, R177: what Step answers the host: the result, the state, and at most one event, the one OUT gained. -/
def Obligations.StepAnswersItsResultAndItsEvent : Prop :=
  ∀ s : State,
    (∀ t, step s = .next t →
      ∃ ev : Option OutEvent, t.out = s.out ++ ev.toList ∧
        hostOp .step s = .ok (.stepped (if t.report = .halted then .halted else .ok) ev, t)) ∧
    (∀ f, step s = .fault f → hostOp .step s = .ok (.stepped (.fault f) none, s))

/-- R212, R213: the two ways to boot put the image in RAM and leave the same core but for ROM; after Reset and
LoadROM alone, every one of any number of Steps answers Halted. -/
def Obligations.BothBootSequencesLoadTheImage : Prop :=
  ∀ (s : State) (image : List Byte), image.length = 65535 →
    (∃ t u, hostRunIn Config.hardware [.reset, .loadRam image] s = .ok ([.done, .done], t) ∧
      hostRunIn Config.hardware [.reset, .loadRom image, .copyRomToRam] s = .ok ([.done, .done, .done], u) ∧
      u = { t with rom := u.rom } ∧ t.ic = 0 ∧ t.regA = 0 ∧ t.regB = 0 ∧ t.stack = [] ∧
      ∀ (a : Nat) (h : a < image.length), t.ram.read a = image[a]) ∧
    (∀ k : Nat, ∃ t, hostRunIn Config.hardware (.reset :: .loadRom image :: List.replicate k .step) s =
      .ok (.done :: .done :: List.replicate k (.stepped .halted none), t))

/-- The model's choice (log entry 9): an image whose length is not MEM_SIZE is refused by name. -/
def Obligations.ImagesOfAnotherLengthAreRefused : Prop :=
  ∀ (s : State) (image : List Byte), image.length ≠ 65535 →
    hostOp (.loadRam image) s = .error (.imageLength image.length) ∧
      hostOp (.loadRom image) s = .error (.imageLength image.length)
end

