-- ==== Sys2Proof/Laws/Decode.lean ====
section
/-! SUPPORT. What the operand readers of the decoder answer, and how the opcode byte is found among the twelve. -/

namespace Sys2Proof

theorem decodeOne_eq_ok {opc : Byte} {f : Byte → Instr} {bs : List Byte} {i : Instr} :
    decodeOne opc f bs = .ok i ↔ ∃ x rest, bs = x :: rest ∧ i = f x := by
  unfold decodeOne
  split <;> simp [eq_comm]

theorem decodeTwo_eq_ok {opc : Byte} {f : Byte → Byte → Instr} {bs : List Byte} {i : Instr} :
    decodeTwo opc f bs = .ok i ↔ ∃ x y rest, bs = x :: y :: rest ∧ i = f x y := by
  unfold decodeTwo
  split <;> simp [eq_comm]

theorem decodeThree_eq_ok {opc : Byte} {f : Byte → Byte → Byte → Instr} {bs : List Byte} {i : Instr} :
    decodeThree opc f bs = .ok i ↔ ∃ x y z rest, bs = x :: y :: z :: rest ∧ i = f x y z := by
  unfold decodeThree
  split <;> simp [eq_comm]

theorem decodeOne_ne_invalid (opc b : Byte) (f : Byte → Instr) (bs : List Byte) :
    decodeOne opc f bs ≠ .error (.invalidOpcode b) := by
  unfold decodeOne
  split <;> simp

theorem decodeTwo_ne_invalid (opc b : Byte) (f : Byte → Byte → Instr) (bs : List Byte) :
    decodeTwo opc f bs ≠ .error (.invalidOpcode b) := by
  unfold decodeTwo
  split <;> simp

theorem decodeThree_ne_invalid (opc b : Byte) (f : Byte → Byte → Byte → Instr) (bs : List Byte) :
    decodeThree opc f bs ≠ .error (.invalidOpcode b) := by
  unfold decodeThree
  split <;> simp

/-- The byte is one of the twelve opcodes of R87 or is at least 0x0C. -/
theorem opcode_cases : ∀ o : Byte,
    o = 0x00 ∨ o = 0x01 ∨ o = 0x02 ∨ o = 0x03 ∨ o = 0x04 ∨ o = 0x05 ∨ o = 0x06 ∨ o = 0x07 ∨ o = 0x08 ∨ o = 0x09 ∨
      o = 0x0A ∨ o = 0x0B ∨ 12 ≤ o.toNat := by
  decide

end Sys2Proof
end

