-- ==== Sys2Proof/Laws/State.lean ====
section
/-! SUPPORT. One lemma for each field of State under each update, so that no proof unfolds a record update. -/

namespace Sys2Proof.Machine

section
variable (s : State)

@[simp] theorem State.reg_a : s.reg .a = s.regA := rfl
@[simp] theorem State.reg_b : s.reg .b = s.regB := rfl
@[simp] theorem State.setReg_a_regA (v : Byte) : (s.setReg .a v).regA = v := rfl
@[simp] theorem State.setReg_a_regB (v : Byte) : (s.setReg .a v).regB = s.regB := rfl
@[simp] theorem State.setReg_b_regA (v : Byte) : (s.setReg .b v).regA = s.regA := rfl
@[simp] theorem State.setReg_b_regB (v : Byte) : (s.setReg .b v).regB = v := rfl
@[simp] theorem State.setReg_ic (r : Reg) (v : Byte) : (s.setReg r v).ic = s.ic := by cases r <;> rfl
@[simp] theorem State.setReg_stack (r : Reg) (v : Byte) : (s.setReg r v).stack = s.stack := by cases r <;> rfl
@[simp] theorem State.setReg_ram (r : Reg) (v : Byte) : (s.setReg r v).ram = s.ram := by cases r <;> rfl
@[simp] theorem State.setReg_rom (r : Reg) (v : Byte) : (s.setReg r v).rom = s.rom := by cases r <;> rfl
@[simp] theorem State.setReg_out (r : Reg) (v : Byte) : (s.setReg r v).out = s.out := by cases r <;> rfl
@[simp] theorem State.setReg_report (r : Reg) (v : Byte) : (s.setReg r v).report = s.report := by cases r <;> rfl

@[simp] theorem State.setIc_regA (n : Nat) : (s.setIc n).regA = s.regA := rfl
@[simp] theorem State.setIc_regB (n : Nat) : (s.setIc n).regB = s.regB := rfl
@[simp] theorem State.setIc_ic (n : Nat) : (s.setIc n).ic = n := rfl
@[simp] theorem State.setIc_stack (n : Nat) : (s.setIc n).stack = s.stack := rfl
@[simp] theorem State.setIc_ram (n : Nat) : (s.setIc n).ram = s.ram := rfl
@[simp] theorem State.setIc_rom (n : Nat) : (s.setIc n).rom = s.rom := rfl
@[simp] theorem State.setIc_out (n : Nat) : (s.setIc n).out = s.out := rfl
@[simp] theorem State.setIc_report (n : Nat) : (s.setIc n).report = s.report := rfl
@[simp] theorem State.setIc_reg (n : Nat) (r' : Reg) : (s.setIc n).reg r' = s.reg r' := by cases r' <;> rfl

@[simp] theorem State.pushByte_regA (v : Byte) : (s.pushByte v).regA = s.regA := rfl
@[simp] theorem State.pushByte_regB (v : Byte) : (s.pushByte v).regB = s.regB := rfl
@[simp] theorem State.pushByte_ic (v : Byte) : (s.pushByte v).ic = s.ic := rfl
@[simp] theorem State.pushByte_stack (v : Byte) : (s.pushByte v).stack = s.stack ++ [v] := rfl
@[simp] theorem State.pushByte_ram (v : Byte) : (s.pushByte v).ram = s.ram := rfl
@[simp] theorem State.pushByte_rom (v : Byte) : (s.pushByte v).rom = s.rom := rfl
@[simp] theorem State.pushByte_out (v : Byte) : (s.pushByte v).out = s.out := rfl
@[simp] theorem State.pushByte_report (v : Byte) : (s.pushByte v).report = s.report := rfl
@[simp] theorem State.pushByte_reg (v : Byte) (r' : Reg) : (s.pushByte v).reg r' = s.reg r' := by cases r' <;> rfl

@[simp] theorem State.popByte_regA : (s.popByte).regA = s.regA := rfl
@[simp] theorem State.popByte_regB : (s.popByte).regB = s.regB := rfl
@[simp] theorem State.popByte_ic : (s.popByte).ic = s.ic := rfl
@[simp] theorem State.popByte_stack : (s.popByte).stack = s.stack.dropLast := rfl
@[simp] theorem State.popByte_ram : (s.popByte).ram = s.ram := rfl
@[simp] theorem State.popByte_rom : (s.popByte).rom = s.rom := rfl
@[simp] theorem State.popByte_out : (s.popByte).out = s.out := rfl
@[simp] theorem State.popByte_report : (s.popByte).report = s.report := rfl
@[simp] theorem State.popByte_reg (r' : Reg) : (s.popByte).reg r' = s.reg r' := by cases r' <;> rfl

@[simp] theorem State.emit_regA (r : Reg) : (s.emit r).regA = s.regA := rfl
@[simp] theorem State.emit_regB (r : Reg) : (s.emit r).regB = s.regB := rfl
@[simp] theorem State.emit_ic (r : Reg) : (s.emit r).ic = s.ic := rfl
@[simp] theorem State.emit_stack (r : Reg) : (s.emit r).stack = s.stack := rfl
@[simp] theorem State.emit_ram (r : Reg) : (s.emit r).ram = s.ram := rfl
@[simp] theorem State.emit_rom (r : Reg) : (s.emit r).rom = s.rom := rfl
@[simp] theorem State.emit_out (r : Reg) : (s.emit r).out = s.out ++ [{ reg := r, value := s.reg r }] := rfl
@[simp] theorem State.emit_report (r : Reg) : (s.emit r).report = s.report := rfl
@[simp] theorem State.emit_reg (r r' : Reg) : (s.emit r).reg r' = s.reg r' := by cases r' <;> rfl

@[simp] theorem State.setReport_regA (q : Report) : (s.setReport q).regA = s.regA := rfl
@[simp] theorem State.setReport_regB (q : Report) : (s.setReport q).regB = s.regB := rfl
@[simp] theorem State.setReport_ic (q : Report) : (s.setReport q).ic = s.ic := rfl
@[simp] theorem State.setReport_stack (q : Report) : (s.setReport q).stack = s.stack := rfl
@[simp] theorem State.setReport_ram (q : Report) : (s.setReport q).ram = s.ram := rfl
@[simp] theorem State.setReport_rom (q : Report) : (s.setReport q).rom = s.rom := rfl
@[simp] theorem State.setReport_out (q : Report) : (s.setReport q).out = s.out := rfl
@[simp] theorem State.setReport_report (q : Report) : (s.setReport q).report = q := rfl
@[simp] theorem State.setReport_reg (q : Report) (r' : Reg) : (s.setReport q).reg r' = s.reg r' := by cases r' <;> rfl

/-- A register reads what was written to it, and the other register keeps its value (R22). -/
theorem State.setReg_reg (r r' : Reg) (v : Byte) : (s.setReg r v).reg r' = if r' = r then v else s.reg r' := by
  cases r <;> cases r' <;> rfl

@[simp] theorem State.postFetch_eq : s.postFetch = s.ic + 1 := rfl

end

/-! ### The values of this hardware's parameters -/

@[simp] theorem hardware_memSize : Config.hardware.memSize = 65535 := rfl
@[simp] theorem hardware_stackDepth : Config.hardware.stackDepth = none := rfl
@[simp] theorem hardware_legacyPlaceholders : Config.hardware.legacyPlaceholders = false := rfl

end Sys2Proof.Machine
end

