-- ==== Sys2Proof/Laws/Ops.lean ====
section
/-! SUPPORT. For each shared operation one lemma that says everything it can do: when it answers a value, and which fault
it raises otherwise. Proofs cite these instead of unfolding the operations. -/

namespace Sys2Proof.Machine

/-! ### Sequencing -/

theorem bind_eq_ok {α β : Type} {x : Except Fault α} {f : α → Except Fault β} {b : β} :
    (x >>= f) = .ok b ↔ ∃ a, x = .ok a ∧ f a = .ok b := by
  cases x <;> simp [bind, Except.bind]

theorem bind_eq_error {α β : Type} {x : Except Fault α} {f : α → Except Fault β} {e : Fault} :
    (x >>= f) = .error e ↔ x = .error e ∨ ∃ a, x = .ok a ∧ f a = .error e := by
  cases x <;> simp [bind, Except.bind]

theorem bind_ok_eq {α β : Type} (a : α) (f : α → Except Fault β) : ((Except.ok a : Except Fault α) >>= f) = f a := rfl

theorem bind_error_eq {α β : Type} (e : Fault) (f : α → Except Fault β) :
    ((Except.error e : Except Fault α) >>= f) = .error e := rfl

theorem require_eq_ok {p : Prop} [Decidable p] {f : Fault} {u : Unit} : require p f = .ok u ↔ p := by
  unfold require raise; split <;> simp [*]

theorem require_eq_error {p : Prop} [Decidable p] {f e : Fault} : require p f = .error e ↔ ¬ p ∧ e = f := by
  unfold require raise; split <;> simp [*, eq_comm]

theorem require_pos {p : Prop} [Decidable p] (f : Fault) (h : p) : require p f = .ok () := require_eq_ok.mpr h

theorem require_neg {p : Prop} [Decidable p] (f : Fault) (h : ¬ p) : require p f = .error f :=
  require_eq_error.mpr ⟨h, rfl⟩

/-! ### Delivery (R110, R186) -/

theorem deliver_eq_next {x : Except Fault State} {t : State} : deliver x = .next t ↔ x = .ok t := by
  cases x <;> simp [deliver]

theorem deliver_eq_fault {x : Except Fault State} {f : Fault} : deliver x = .fault f ↔ x = .error f := by
  cases x <;> simp [deliver]

theorem deliver_ne_refused (x : Except Fault State) (r : Refusal) : deliver x ≠ .refused r := by
  cases x <;> simp [deliver]

theorem commit_eq_ok {s t : State} : commit s = .ok t ↔ t = s.setReport .ok := by
  simp [commit, eq_comm]

theorem commit_ne_error (s : State) (f : Fault) : commit s ≠ .error f := by simp [commit]

/-! ### Operand forms -/

theorem operandByte_eq_ok {c : Config} {addr : Nat} {b v : Byte} :
    operandByte c addr b = .ok v ↔ addr < c.memSize ∧ v = b := by
  simp only [operandByte, bind_eq_ok, require_eq_ok, Except.ok.injEq, exists_const]
  exact and_congr_right fun _ => eq_comm

theorem operandByte_eq_error {c : Config} {addr : Nat} {b : Byte} {f : Fault} :
    operandByte c addr b = .error f ↔ c.memSize ≤ addr ∧ f = .addressOutOfRange addr := by
  simp [operandByte, bind_eq_error, require_eq_error]

theorem memRead_eq_ok {c : Config} {s : State} {addr : Nat} {v : Byte} :
    memRead c s addr = .ok v ↔ addr < c.memSize ∧ v = s.ram.read addr := by
  simp only [memRead, bind_eq_ok, require_eq_ok, Except.ok.injEq, exists_const]
  exact and_congr_right fun _ => eq_comm

theorem memRead_eq_error {c : Config} {s : State} {addr : Nat} {f : Fault} :
    memRead c s addr = .error f ↔ c.memSize ≤ addr ∧ f = .addressOutOfRange addr := by
  simp [memRead, bind_eq_error, require_eq_error]

theorem selReg_eq_some {b : Byte} {r : Reg} : selReg b = some r ↔ (b = 1 ∧ r = .a) ∨ (b = 2 ∧ r = .b) := by
  unfold selReg
  split
  · next h => subst h; simp [eq_comm]
  · split
    · next h => subst h; simp [eq_comm]
    · next h1 h2 => simp only [reduceCtorEq, h1, h2, false_and, or_false]

theorem selReg_eq_none {b : Byte} : selReg b = none ↔ b ≠ 1 ∧ b ≠ 2 := by
  unfold selReg
  split
  · next h => simp [h]
  · split
    · next h => simp [h]
    · next h1 h2 => simp only [ne_eq, h1, h2, not_false_eq_true, and_self]

theorem decodeSel_eq_ok {c : Config} {addr : Nat} {b : Byte} {r : Reg} :
    decodeSel c addr b = .ok r ↔ addr < c.memSize ∧ selReg b = some r := by
  unfold decodeSel
  rw [bind_eq_ok]
  simp only [operandByte_eq_ok]
  cases h : selReg b <;> simp [h, raise]

theorem decodeSel_eq_error {c : Config} {addr : Nat} {b : Byte} {f : Fault} :
    decodeSel c addr b = .error f ↔
      (c.memSize ≤ addr ∧ f = .addressOutOfRange addr) ∨
      (addr < c.memSize ∧ selReg b = none ∧ f = .invalidRegisterSelector addr b) := by
  unfold decodeSel
  rw [bind_eq_error]
  simp only [operandByte_eq_ok, operandByte_eq_error]
  cases h : selReg b <;> simp [h, raise, eq_comm]

theorem indirect_eq_ok {c : Config} {s : State} {q : Nat} {ptr : Byte} {t : Nat} :
    indirect c s q ptr = .ok t ↔
      q + 1 < c.memSize ∧ ptr.toNat < c.memSize ∧ t = (s.ram.read ptr.toNat).toNat ∧ t < c.memSize := by
  simp only [indirect, bind_eq_ok, operandByte_eq_ok, memRead_eq_ok, require_eq_ok]
  constructor
  · rintro ⟨p, ⟨h1, rfl⟩, b, ⟨h2, rfl⟩, -, h3, h4⟩
    cases h4
    exact ⟨h1, h2, rfl, h3⟩
  · rintro ⟨h1, h2, rfl, h3⟩
    exact ⟨_, ⟨h1, rfl⟩, _, ⟨h2, rfl⟩, (), h3, rfl⟩

theorem indirect_eq_error {c : Config} {s : State} {q : Nat} {ptr : Byte} {f : Fault} :
    indirect c s q ptr = .error f ↔
      (c.memSize ≤ q + 1 ∧ f = .addressOutOfRange (q + 1)) ∨
      (q + 1 < c.memSize ∧ c.memSize ≤ ptr.toNat ∧ f = .addressOutOfRange ptr.toNat) ∨
      (q + 1 < c.memSize ∧ ptr.toNat < c.memSize ∧ c.memSize ≤ (s.ram.read ptr.toNat).toNat ∧
        f = .addressOutOfRange (s.ram.read ptr.toNat).toNat) := by
  simp only [indirect, bind_eq_error, operandByte_eq_ok, operandByte_eq_error, memRead_eq_ok, memRead_eq_error,
    require_eq_ok, require_eq_error]
  constructor
  · rintro (h | ⟨p, ⟨h1, rfl⟩, h | ⟨b, ⟨h2, rfl⟩, h | ⟨-, -, h⟩⟩⟩)
    · exact .inl h
    · exact .inr (.inl ⟨h1, h.1, h.2⟩)
    · exact .inr (.inr ⟨h1, h2, by omega, h.2⟩)
    · cases h
  · rintro (h | ⟨h1, h2, h3⟩ | ⟨h1, h2, h3, h4⟩)
    · exact .inl h
    · exact .inr ⟨_, ⟨h1, rfl⟩, .inl ⟨h2, h3⟩⟩
    · exact .inr ⟨_, ⟨h1, rfl⟩, .inr ⟨_, ⟨h2, rfl⟩, .inl ⟨by omega, h4⟩⟩⟩

/-! ### The shared instruction rules -/

theorem arith_eq_ok {c : Config} {f : Byte → Byte → Except Fault Byte} {sel imm : Byte} {s t : State} :
    arith c f sel imm s = .ok t ↔
      ∃ r v, s.ic + 1 < c.memSize ∧ selReg sel = some r ∧ s.ic + 2 < c.memSize ∧ f (s.reg r) imm = .ok v ∧
        t = ((s.setReg .a v).setIc (s.ic + 3)).setReport .ok := by
  simp only [arith, bind_eq_ok, decodeSel_eq_ok, operandByte_eq_ok, commit_eq_ok, State.postFetch_eq]
  constructor
  · rintro ⟨r, ⟨h1, h2⟩, n, ⟨h3, rfl⟩, v, h4, rfl⟩; exact ⟨r, v, h1, h2, h3, h4, rfl⟩
  · rintro ⟨r, v, h1, h2, h3, h4, rfl⟩; exact ⟨r, ⟨h1, h2⟩, imm, ⟨h3, rfl⟩, v, h4, rfl⟩

theorem arith_eq_error {c : Config} {f : Byte → Byte → Except Fault Byte} {sel imm : Byte} {s : State} {e : Fault} :
    arith c f sel imm s = .error e ↔
      (c.memSize ≤ s.ic + 1 ∧ e = .addressOutOfRange (s.ic + 1)) ∨
      (s.ic + 1 < c.memSize ∧ selReg sel = none ∧ e = .invalidRegisterSelector (s.ic + 1) sel) ∨
      (∃ r, s.ic + 1 < c.memSize ∧ selReg sel = some r ∧ c.memSize ≤ s.ic + 2 ∧ e = .addressOutOfRange (s.ic + 2)) ∨
      (∃ r, s.ic + 2 < c.memSize ∧ selReg sel = some r ∧ f (s.reg r) imm = .error e) := by
  simp only [arith, bind_eq_error, decodeSel_eq_ok, decodeSel_eq_error, operandByte_eq_ok, operandByte_eq_error,
    commit_ne_error, State.postFetch_eq]
  constructor
  · rintro ((h | h) | ⟨r, ⟨h1, h2⟩, h | ⟨n, ⟨h3, rfl⟩, h | ⟨_, _, h⟩⟩⟩)
    · exact .inl h
    · exact .inr (.inl h)
    · exact .inr (.inr (.inl ⟨r, h1, h2, h⟩))
    · exact .inr (.inr (.inr ⟨r, h3, h2, h⟩))
    · exact h.elim
  · rintro (h | h | ⟨r, h1, h2, h⟩ | ⟨r, h1, h2, h⟩)
    · exact .inl (.inl h)
    · exact .inl (.inr h)
    · exact .inr ⟨r, ⟨h1, h2⟩, .inl h⟩
    · exact .inr ⟨r, ⟨by omega, h2⟩, .inr ⟨imm, ⟨h1, rfl⟩, .inl h⟩⟩

theorem divide_eq_ok {x n v : Byte} : divide x n = .ok v ↔ n ≠ 0 ∧ v = aluDiv x n := by
  simp only [divide, bind_eq_ok, require_eq_ok, Except.ok.injEq, exists_const]
  exact and_congr_right fun _ => eq_comm

theorem divide_eq_error {x n : Byte} {f : Fault} : divide x n = .error f ↔ n = 0 ∧ f = .divisionByZero := by
  simp [divide, bind_eq_error, require_eq_error]

theorem jumpIfZero_eq_ok {c : Config} {own : Reg} {sel ptr : Byte} {s t : State} :
    jumpIfZero c own sel ptr s = .ok t ↔
      s.ic + 1 < c.memSize ∧ selReg sel = some own ∧
      ((s.isZero own = true ∧ ∃ n, indirect c s (s.ic + 2) ptr = .ok n ∧ t = (s.setIc n).setReport .ok) ∨
       (s.isZero own = false ∧ t = (s.setIc (s.ic + 3)).setReport .ok)) := by
  simp only [jumpIfZero, bind_eq_ok, decodeSel_eq_ok, require_eq_ok, State.postFetch_eq]
  constructor
  · rintro ⟨r, ⟨h1, h2⟩, -, rfl, h⟩
    refine ⟨h1, h2, ?_⟩
    split at h
    · next hz => exact .inl ⟨hz, by simpa only [bind_eq_ok, commit_eq_ok] using h⟩
    · next hz => exact .inr ⟨by simpa using hz, commit_eq_ok.mp h⟩
  · rintro ⟨h1, h2, h⟩
    refine ⟨own, ⟨h1, h2⟩, (), rfl, ?_⟩
    rcases h with ⟨hz, h⟩ | ⟨hz, rfl⟩
    · rw [if_pos hz]; simpa only [bind_eq_ok, commit_eq_ok] using h
    · rw [hz]; exact commit_eq_ok.mpr rfl

theorem jumpIfZero_eq_error {c : Config} {own : Reg} {sel ptr : Byte} {s : State} {f : Fault} :
    jumpIfZero c own sel ptr s = .error f ↔
      (c.memSize ≤ s.ic + 1 ∧ f = .addressOutOfRange (s.ic + 1)) ∨
      (s.ic + 1 < c.memSize ∧ selReg sel = none ∧ f = .invalidRegisterSelector (s.ic + 1) sel) ∨
      (∃ r, s.ic + 1 < c.memSize ∧ selReg sel = some r ∧ r ≠ own ∧ f = .registerSelectorMismatch (s.ic + 1) r) ∨
      (s.ic + 1 < c.memSize ∧ selReg sel = some own ∧ s.isZero own = true ∧
        indirect c s (s.ic + 2) ptr = .error f) := by
  simp only [jumpIfZero, bind_eq_error, decodeSel_eq_ok, decodeSel_eq_error, require_eq_ok, require_eq_error,
    State.postFetch_eq]
  constructor
  · rintro ((h | h) | ⟨r, ⟨h1, h2⟩, ⟨h3, rfl⟩ | ⟨-, rfl, h⟩⟩)
    · exact .inl h
    · exact .inr (.inl h)
    · exact .inr (.inr (.inl ⟨r, h1, h2, h3, rfl⟩))
    · refine .inr (.inr (.inr ⟨h1, h2, ?_⟩))
      split at h
      · next hz => exact ⟨hz, by simpa only [bind_eq_error, commit_ne_error, and_false, exists_false, or_false] using h⟩
      · exact absurd h (commit_ne_error _ _)
  · rintro (h | h | ⟨r, h1, h2, h3, rfl⟩ | ⟨h1, h2, hz, h⟩)
    · exact .inl (.inl h)
    · exact .inl (.inr h)
    · exact .inr ⟨r, ⟨h1, h2⟩, .inl ⟨h3, rfl⟩⟩
    · refine .inr ⟨own, ⟨h1, h2⟩, .inr ⟨(), rfl, ?_⟩⟩
      rw [if_pos hz, bind_eq_error]; exact .inl h

theorem jmpIn_eq_ok {c : Config} {ign ptr : Byte} {s t : State} :
    jmpIn c ign ptr s = .ok t ↔ ∃ n, indirect c s (s.ic + 1) ptr = .ok n ∧ t = (s.setIc n).setReport .ok := by
  simp only [jmpIn, bind_eq_ok, commit_eq_ok, State.postFetch_eq]

theorem jmpIn_eq_error {c : Config} {ign ptr : Byte} {s : State} {f : Fault} :
    jmpIn c ign ptr s = .error f ↔ indirect c s (s.ic + 1) ptr = .error f := by
  simp only [jmpIn, bind_eq_error, commit_ne_error, State.postFetch_eq, and_false, exists_false, or_false]

theorem pushIn_eq_ok {c : Config} {ign imm : Byte} {s t : State} :
    pushIn c ign imm s = .ok t ↔
      s.ic + 2 < c.memSize ∧ stackFull c s = false ∧ t = ((s.pushByte imm).setIc (s.ic + 3)).setReport .ok := by
  simp only [pushIn, bind_eq_ok, operandByte_eq_ok, require_eq_ok, commit_eq_ok, State.postFetch_eq]
  constructor
  · rintro ⟨v, ⟨h1, rfl⟩, -, h2, rfl⟩; exact ⟨h1, h2, rfl⟩
  · rintro ⟨h1, h2, rfl⟩; exact ⟨imm, ⟨h1, rfl⟩, (), h2, rfl⟩

theorem pushIn_eq_error {c : Config} {ign imm : Byte} {s : State} {f : Fault} :
    pushIn c ign imm s = .error f ↔
      (c.memSize ≤ s.ic + 2 ∧ f = .addressOutOfRange (s.ic + 2)) ∨
      (s.ic + 2 < c.memSize ∧ stackFull c s = true ∧ f = .stackOverflow) := by
  simp [pushIn, bind_eq_error, operandByte_eq_ok, operandByte_eq_error, require_eq_error, commit_ne_error]

theorem popIn_eq_ok {ign : Byte} {s t : State} :
    popIn ign s = .ok t ↔ s.stack ≠ [] ∧ t = (s.popByte.setIc (s.ic + 2)).setReport .ok := by
  simp [popIn, bind_eq_ok, require_eq_ok, commit_eq_ok]

theorem popIn_eq_error {ign : Byte} {s : State} {f : Fault} :
    popIn ign s = .error f ↔ s.stack = [] ∧ f = .stackUnderflow := by
  simp [popIn, bind_eq_error, require_eq_error, commit_ne_error]

theorem movIn_eq_ok {c : Config} {dsel ssel : Byte} {s t : State} :
    movIn c dsel ssel s = .ok t ↔
      c.legacyPlaceholders = false ∧ s.ic + 2 < c.memSize ∧
      ∃ d r, selReg dsel = some d ∧ selReg ssel = some r ∧
        t = ((s.setReg d (s.reg r)).setIc (s.ic + 3)).setReport .ok := by
  simp only [movIn, bind_eq_ok, require_eq_ok, decodeSel_eq_ok, commit_eq_ok, State.postFetch_eq]
  constructor
  · rintro ⟨-, h0, d, ⟨-, h2⟩, r, ⟨h3, h4⟩, rfl⟩; exact ⟨h0, h3, d, r, h2, h4, rfl⟩
  · rintro ⟨h0, h1, d, r, h2, h3, rfl⟩; exact ⟨(), h0, d, ⟨by omega, h2⟩, r, ⟨h1, h3⟩, rfl⟩

theorem movIn_eq_error {c : Config} {dsel ssel : Byte} {s : State} {f : Fault} :
    movIn c dsel ssel s = .error f ↔
      (c.legacyPlaceholders = true ∧ f = .unimplemented s.ic 0x0A) ∨
      (c.legacyPlaceholders = false ∧
        ((c.memSize ≤ s.ic + 1 ∧ f = .addressOutOfRange (s.ic + 1)) ∨
         (s.ic + 1 < c.memSize ∧ selReg dsel = none ∧ f = .invalidRegisterSelector (s.ic + 1) dsel) ∨
         (∃ d, s.ic + 1 < c.memSize ∧ selReg dsel = some d ∧
           ((c.memSize ≤ s.ic + 2 ∧ f = .addressOutOfRange (s.ic + 2)) ∨
            (s.ic + 2 < c.memSize ∧ selReg ssel = none ∧ f = .invalidRegisterSelector (s.ic + 2) ssel))))) := by
  simp only [movIn, bind_eq_error, require_eq_ok, require_eq_error, decodeSel_eq_ok, decodeSel_eq_error,
    commit_ne_error, State.postFetch_eq, and_false, exists_false, or_false, Bool.not_eq_false]
  constructor
  · rintro (h | ⟨-, h0, (h | h) | ⟨d, ⟨h1, h2⟩, h⟩⟩)
    · exact .inl h
    · exact .inr ⟨h0, .inl h⟩
    · exact .inr ⟨h0, .inr (.inl h)⟩
    · exact .inr ⟨h0, .inr (.inr ⟨d, h1, h2, h⟩)⟩
  · rintro (h | ⟨h0, h | h | ⟨d, h1, h2, h⟩⟩)
    · exact .inl h
    · exact .inr ⟨(), h0, .inl (.inl h)⟩
    · exact .inr ⟨(), h0, .inl (.inr h)⟩
    · exact .inr ⟨(), h0, .inr ⟨d, ⟨h1, h2⟩, h⟩⟩

theorem printIn_eq_ok {c : Config} {sel : Byte} {s t : State} :
    printIn c sel s = .ok t ↔
      c.legacyPlaceholders = false ∧ s.ic + 1 < c.memSize ∧
      ∃ r, selReg sel = some r ∧ t = ((s.emit r).setIc (s.ic + 2)).setReport .ok := by
  simp only [printIn, bind_eq_ok, require_eq_ok, decodeSel_eq_ok, commit_eq_ok, State.postFetch_eq]
  constructor
  · rintro ⟨-, h0, r, ⟨h1, h2⟩, rfl⟩; exact ⟨h0, h1, r, h2, rfl⟩
  · rintro ⟨h0, h1, r, h2, rfl⟩; exact ⟨(), h0, r, ⟨h1, h2⟩, rfl⟩

theorem printIn_eq_error {c : Config} {sel : Byte} {s : State} {f : Fault} :
    printIn c sel s = .error f ↔
      (c.legacyPlaceholders = true ∧ f = .unimplemented s.ic 0x0B) ∨
      (c.legacyPlaceholders = false ∧
        ((c.memSize ≤ s.ic + 1 ∧ f = .addressOutOfRange (s.ic + 1)) ∨
         (s.ic + 1 < c.memSize ∧ selReg sel = none ∧ f = .invalidRegisterSelector (s.ic + 1) sel))) := by
  simp [printIn, bind_eq_error, require_eq_ok, require_eq_error, decodeSel_eq_ok, decodeSel_eq_error, commit_ne_error]

theorem haltIn_eq_ok {s t : State} : haltIn s = .ok t ↔ t = s.setReport .halted := by
  simp [haltIn, eq_comm]

theorem haltIn_ne_error (s : State) (f : Fault) : haltIn s ≠ .error f := by simp [haltIn]

end Sys2Proof.Machine
end

