-- ==== Sys2Proof/Laws/Step.lean ====
section
/-! SUPPORT. What a fetch, a step and a host operation can do, and that `exec` and `step` are the configured machine at
this hardware's configuration. -/

namespace Sys2Proof.Machine

/-- Each arm of `exec` is the instruction's rule at this hardware's configuration, delivered. -/
theorem exec_eq_deliver (i : Instr) (s : State) : exec i s = deliver (ruleIn Config.hardware i s) := by
  cases i <;> rfl

theorem exec_eq_next {i : Instr} {s t : State} : exec i s = .next t ↔ ruleIn Config.hardware i s = .ok t := by
  rw [exec_eq_deliver, deliver_eq_next]

theorem exec_eq_fault {i : Instr} {s : State} {f : Fault} :
    exec i s = .fault f ↔ ruleIn Config.hardware i s = .error f := by
  rw [exec_eq_deliver, deliver_eq_fault]

theorem execIn_eq_next {c : Config} {i : Instr} {s t : State} : execIn c i s = .next t ↔ ruleIn c i s = .ok t :=
  deliver_eq_next

theorem execIn_eq_fault {c : Config} {i : Instr} {s : State} {f : Fault} :
    execIn c i s = .fault f ↔ ruleIn c i s = .error f :=
  deliver_eq_fault

theorem step_eq_stepIn (s : State) : step s = stepIn Config.hardware s := by
  unfold step stepIn
  cases fetchInstr Config.hardware s with
  | ok i => exact exec_eq_deliver i s
  | error f => rfl

theorem fetchWindow_eq (s : State) :
    fetchWindow s = [s.ram.read s.ic, s.ram.read (s.ic + 1), s.ram.read (s.ic + 2), s.ram.read (s.ic + 3)] := rfl

theorem fetchInstr_eq_ok {c : Config} {s : State} {i : Instr} :
    fetchInstr c s = .ok i ↔ s.ic < c.memSize ∧ decode (fetchWindow s) = .ok i := by
  unfold fetchInstr
  rw [bind_eq_ok]
  simp only [require_eq_ok]
  cases h : decode (fetchWindow s) <;> simp [raise]

theorem fetchInstr_eq_error {c : Config} {s : State} {f : Fault} :
    fetchInstr c s = .error f ↔
      (c.memSize ≤ s.ic ∧ f = .addressOutOfRange s.ic) ∨
      (s.ic < c.memSize ∧ ∃ e, decode (fetchWindow s) = .error e ∧ f = fetchFault s e) := by
  unfold fetchInstr
  rw [bind_eq_error]
  simp only [require_eq_ok, require_eq_error]
  cases h : decode (fetchWindow s) <;> simp [raise, eq_comm]

theorem stepIn_eq_next {c : Config} {s t : State} :
    stepIn c s = .next t ↔
      ∃ i, s.ic < c.memSize ∧ decode (fetchWindow s) = .ok i ∧ ruleIn c i s = .ok t := by
  unfold stepIn
  cases h : fetchInstr c s with
  | ok i =>
    have h' := fetchInstr_eq_ok.mp h
    simp [execIn_eq_next, h'.1, h'.2]
  | error f =>
    simp only [reduceCtorEq, false_iff]
    rintro ⟨i, h1, h2, -⟩
    rw [fetchInstr_eq_ok.mpr ⟨h1, h2⟩] at h
    cases h

theorem stepIn_eq_fault {c : Config} {s : State} {f : Fault} :
    stepIn c s = .fault f ↔
      fetchInstr c s = .error f ∨
      ∃ i, s.ic < c.memSize ∧ decode (fetchWindow s) = .ok i ∧ ruleIn c i s = .error f := by
  unfold stepIn
  cases h : fetchInstr c s with
  | ok i =>
    have h' := fetchInstr_eq_ok.mp h
    simp [execIn_eq_fault, h'.1, h'.2]
  | error e =>
    simp only [Host.Outcome.fault.injEq, Except.error.injEq]
    constructor
    · exact .inl
    · rintro (h' | ⟨i, h1, h2, -⟩)
      · exact h'
      · rw [fetchInstr_eq_ok.mpr ⟨h1, h2⟩] at h
        cases h

theorem step_eq_next {s t : State} :
    step s = .next t ↔
      ∃ i, s.ic < 65535 ∧ decode (fetchWindow s) = .ok i ∧ ruleIn Config.hardware i s = .ok t := by
  rw [step_eq_stepIn, stepIn_eq_next, hardware_memSize]

theorem stepResultIn_eq_ok {c : Config} {s t : State} {r : StepResult} :
    stepResultIn c s = .ok (r, t) ↔
      (stepIn c s = .next t ∧ r = resultOf t) ∨ (∃ f, stepIn c s = .fault f ∧ r = .fault f ∧ t = s) := by
  unfold stepResultIn
  cases h : stepIn c s with
  | next u =>
    simp only [Except.ok.injEq, Prod.mk.injEq, Host.Outcome.next.injEq, reduceCtorEq, false_and, exists_false, or_false]
    constructor
    · rintro ⟨rfl, rfl⟩; exact ⟨rfl, rfl⟩
    · rintro ⟨rfl, rfl⟩; exact ⟨rfl, rfl⟩
  | fault f => simp [eq_comm]
  | refused q => simp

end Sys2Proof.Machine
end

