-- ==== Sys2Proof/Laws/Rules.lean ====
section
/-! SUPPORT. Once, for all twelve instructions: what a rule that completes does. Invariants and frames follow from this one
case split. -/

namespace Sys2Proof.Machine

/-- The rule of `i` completes from `s` with the state `t`: its conditions and its writes (R131 to R164). -/
def Completes (c : Config) (s t : State) (i : Instr) : Prop :=
  match i with
  | .halt => t = s.setReport .halted
  | .add sel imm => s.ic + 2 < c.memSize ∧ ∃ r, selReg sel = some r ∧
      t = ((s.setReg .a (aluAdd (s.reg r) imm)).setIc (s.ic + 3)).setReport .ok
  | .sub sel imm => s.ic + 2 < c.memSize ∧ ∃ r, selReg sel = some r ∧
      t = ((s.setReg .a (aluSub (s.reg r) imm)).setIc (s.ic + 3)).setReport .ok
  | .mult sel imm => s.ic + 2 < c.memSize ∧ ∃ r, selReg sel = some r ∧
      t = ((s.setReg .a (aluMult (s.reg r) imm)).setIc (s.ic + 3)).setReport .ok
  | .div sel imm => s.ic + 2 < c.memSize ∧ imm ≠ 0 ∧ ∃ r, selReg sel = some r ∧
      t = ((s.setReg .a (aluDiv (s.reg r) imm)).setIc (s.ic + 3)).setReport .ok
  | .jmp _ ptr => ∃ n, indirect c s (s.ic + 1) ptr = .ok n ∧ t = (s.setIc n).setReport .ok
  | .jmpIfA sel _ ptr => s.ic + 1 < c.memSize ∧ selReg sel = some .a ∧
      ((s.isZero .a = true ∧ ∃ n, indirect c s (s.ic + 2) ptr = .ok n ∧ t = (s.setIc n).setReport .ok) ∨
       (s.isZero .a = false ∧ t = (s.setIc (s.ic + 3)).setReport .ok))
  | .jmpIfB sel _ ptr => s.ic + 1 < c.memSize ∧ selReg sel = some .b ∧
      ((s.isZero .b = true ∧ ∃ n, indirect c s (s.ic + 2) ptr = .ok n ∧ t = (s.setIc n).setReport .ok) ∨
       (s.isZero .b = false ∧ t = (s.setIc (s.ic + 3)).setReport .ok))
  | .push _ imm => s.ic + 2 < c.memSize ∧ stackFull c s = false ∧
      t = ((s.pushByte imm).setIc (s.ic + 3)).setReport .ok
  | .pop _ => s.stack ≠ [] ∧ t = (s.popByte.setIc (s.ic + 2)).setReport .ok
  | .mov dsel ssel => c.legacyPlaceholders = false ∧ s.ic + 2 < c.memSize ∧ ∃ d r, selReg dsel = some d ∧
      selReg ssel = some r ∧ t = ((s.setReg d (s.reg r)).setIc (s.ic + 3)).setReport .ok
  | .print sel => c.legacyPlaceholders = false ∧ s.ic + 1 < c.memSize ∧ ∃ r, selReg sel = some r ∧
      t = ((s.emit r).setIc (s.ic + 2)).setReport .ok

/-- An arithmetic rule whose computation cannot fault. -/
theorem arith_pure_eq_ok {c : Config} {f : Byte → Byte → Byte} {sel imm : Byte} {s t : State} :
    arith c (fun x n => .ok (f x n)) sel imm s = .ok t ↔
      s.ic + 2 < c.memSize ∧ ∃ r, selReg sel = some r ∧
        t = ((s.setReg .a (f (s.reg r) imm)).setIc (s.ic + 3)).setReport .ok := by
  rw [arith_eq_ok]
  constructor
  · rintro ⟨r, v, -, h1, h2, h3, rfl⟩; cases h3; exact ⟨h2, r, h1, rfl⟩
  · rintro ⟨h1, r, h2, rfl⟩; exact ⟨r, _, by omega, h2, h1, rfl, rfl⟩

theorem arith_divide_eq_ok {c : Config} {sel imm : Byte} {s t : State} :
    arith c divide sel imm s = .ok t ↔
      s.ic + 2 < c.memSize ∧ imm ≠ 0 ∧ ∃ r, selReg sel = some r ∧
        t = ((s.setReg .a (aluDiv (s.reg r) imm)).setIc (s.ic + 3)).setReport .ok := by
  rw [arith_eq_ok]
  constructor
  · rintro ⟨r, v, -, h1, h2, h3, rfl⟩
    obtain ⟨h4, rfl⟩ := divide_eq_ok.mp h3
    exact ⟨h2, h4, r, h1, rfl⟩
  · rintro ⟨h1, h2, r, h3, rfl⟩
    exact ⟨r, _, by omega, h3, h1, divide_eq_ok.mpr ⟨h2, rfl⟩, rfl⟩

theorem ruleIn_eq_ok {c : Config} {i : Instr} {s t : State} : ruleIn c i s = .ok t ↔ Completes c s t i := by
  cases i with
  | halt => exact haltIn_eq_ok
  | add sel imm => exact arith_pure_eq_ok
  | sub sel imm => exact arith_pure_eq_ok
  | mult sel imm => exact arith_pure_eq_ok
  | div sel imm => exact arith_divide_eq_ok
  | jmp ign ptr => exact jmpIn_eq_ok (ign := ign)
  | jmpIfA sel ign ptr => exact jumpIfZero_eq_ok
  | jmpIfB sel ign ptr => exact jumpIfZero_eq_ok
  | push ign imm => exact pushIn_eq_ok (ign := ign)
  | pop ign => exact popIn_eq_ok (ign := ign)
  | mov dsel ssel => exact movIn_eq_ok
  | print sel => exact printIn_eq_ok

/-- What `exec` can answer as a next state. -/
theorem exec_next_iff {i : Instr} {s t : State} : exec i s = .next t ↔ Completes Config.hardware s t i :=
  exec_eq_next.trans ruleIn_eq_ok

/-- What a step of the configured machine can answer as a next state. -/
theorem stepIn_next_iff {c : Config} {s t : State} :
    stepIn c s = .next t ↔ ∃ i, s.ic < c.memSize ∧ decode (fetchWindow s) = .ok i ∧ Completes c s t i := by
  simp only [stepIn_eq_next, ruleIn_eq_ok]

/-- What a step of this hardware can answer as a next state. -/
theorem step_next_iff {s t : State} :
    step s = .next t ↔ ∃ i, s.ic < 65535 ∧ decode (fetchWindow s) = .ok i ∧ Completes Config.hardware s t i := by
  rw [step_eq_stepIn, stepIn_next_iff, hardware_memSize]

/-- The error side of the rules of the arithmetic instructions. -/
theorem arith_pure_eq_error {c : Config} {f : Byte → Byte → Byte} {sel imm : Byte} {s : State} {e : Fault} :
    arith c (fun x n => .ok (f x n)) sel imm s = .error e ↔
      (c.memSize ≤ s.ic + 1 ∧ e = .addressOutOfRange (s.ic + 1)) ∨
      (s.ic + 1 < c.memSize ∧ selReg sel = none ∧ e = .invalidRegisterSelector (s.ic + 1) sel) ∨
      (∃ r, s.ic + 1 < c.memSize ∧ selReg sel = some r ∧ c.memSize ≤ s.ic + 2 ∧
        e = .addressOutOfRange (s.ic + 2)) := by
  rw [arith_eq_error]
  simp only [reduceCtorEq, and_false, exists_false, or_false]

end Sys2Proof.Machine
end

