-- ==== Sys2Proof/Laws/HostOps.lean ====
section
/-! SUPPORT. What each host operation answers, once. -/

namespace Sys2Proof.Machine

/-- The event handed to the sink is the one that OUT gained. -/
theorem newEvent_eq {s t : State} {ev : Option OutEvent} (h : t.out = s.out ++ ev.toList) : newEvent s t = ev := by
  unfold newEvent
  rw [h]
  cases ev <;> simp

theorem hostOpIn_step_of_next {c : Config} {s t : State} (h : stepIn c s = .next t) :
    hostOpIn c .step s = .ok (.stepped (resultOf t) (newEvent s t), t) := by
  unfold hostOpIn stepResultIn
  rw [h]
  rfl

theorem hostOpIn_step_of_fault {c : Config} {s : State} {f : Fault} (h : stepIn c s = .fault f) :
    hostOpIn c .step s = .ok (.stepped (.fault f) none, s) := by
  have hn : newEvent s s = none := newEvent_eq (by simp)
  unfold hostOpIn stepResultIn
  rw [h, ← hn]
  rfl

theorem hostOpIn_loadRam_of_length {c : Config} {image : List Byte} (s : State) (h : image.length = c.memSize) :
    hostOpIn c (.loadRam image) s = .ok (.done, { s with ram := Memory.ofBytes 0 image }) := by
  have hl : loadRamIn c image s = .ok { s with ram := Memory.ofBytes 0 image } := if_pos h
  show (loadRamIn c image s >>= _) = _
  rw [hl]
  rfl

theorem hostOpIn_loadRam_of_wrong_length {c : Config} {image : List Byte} (s : State) (h : image.length ≠ c.memSize) :
    hostOpIn c (.loadRam image) s = .error (.imageLength image.length) := by
  have hl : loadRamIn c image s = .error (.imageLength image.length) := if_neg h
  show (loadRamIn c image s >>= _) = _
  rw [hl]
  rfl

theorem hostOpIn_loadRom_of_length {c : Config} {image : List Byte} (s : State) (h : image.length = c.memSize) :
    hostOpIn c (.loadRom image) s = .ok (.done, { s with rom := Memory.ofBytes 0 image }) := by
  have hl : loadRomIn c image s = .ok { s with rom := Memory.ofBytes 0 image } := if_pos h
  show (loadRomIn c image s >>= _) = _
  rw [hl]
  rfl

theorem hostOpIn_loadRom_of_wrong_length {c : Config} {image : List Byte} (s : State) (h : image.length ≠ c.memSize) :
    hostOpIn c (.loadRom image) s = .error (.imageLength image.length) := by
  have hl : loadRomIn c image s = .error (.imageLength image.length) := if_neg h
  show (loadRomIn c image s >>= _) = _
  rw [hl]
  rfl

/-- A run of host operations, one operation at a time. -/
theorem hostRunIn_cons {c : Config} {op : HostOp} {ops : List HostOp} {s t u : State} {r : HostReply} {rs : List HostReply}
    (h : hostOpIn c op s = .ok (r, t)) (hs : hostRunIn c ops t = .ok (rs, u)) :
    hostRunIn c (op :: ops) s = .ok (r :: rs, u) := by
  rw [hostRunIn, h]
  show (hostRunIn c ops t >>= _) = _
  rw [hs]
  rfl

end Sys2Proof.Machine
end

