-- ==== Sys2Proof/Laws/Memory.lean ====
section
/-! SUPPORT. The laws of the byte arrays: reading after writing, and the canonical form that every operation keeps. -/

namespace Sys2Proof.Machine

@[simp] theorem Memory.read_nil (a : Nat) : Memory.read [] a = Config.blankByte := rfl

theorem Memory.read_cons (k : Nat) (w : Byte) (m : Memory) (a : Nat) :
    Memory.read ((k, w) :: m) a = if k = a then w else Memory.read m a := rfl

/-- Below the first address that may be listed, every byte is blank. -/
theorem Memory.read_below {lo a : Nat} : ∀ {m : Memory}, Memory.wfFrom lo m = true → a < lo →
    m.read a = Config.blankByte
  | [], _, _ => rfl
  | (k, w) :: m, h, ha => by
    simp only [Memory.wfFrom, Bool.and_eq_true, decide_eq_true_eq] at h
    rw [Memory.read_cons, if_neg (by omega), Memory.read_below h.2 (by omega)]

theorem Memory.wfFrom_mono {lo lo' : Nat} (hl : lo' ≤ lo) : ∀ {m : Memory}, Memory.wfFrom lo m = true →
    Memory.wfFrom lo' m = true
  | [], _ => rfl
  | (k, w) :: m, h => by
    simp only [Memory.wfFrom, Bool.and_eq_true, decide_eq_true_eq] at h ⊢
    exact ⟨⟨by omega, h.1.2⟩, h.2⟩

theorem Memory.read_cell {m : Memory} {a : Nat} (v : Byte) (h : Memory.wfFrom (a + 1) m = true) (x : Nat) :
    (Memory.cell a v m).read x = if x = a then v else m.read x := by
  unfold Memory.cell
  split
  · next hv => split
               · next hx => rw [hx, Memory.read_below h (Nat.lt_succ_self a), hv]
               · rfl
  · rw [Memory.read_cons]; simp only [eq_comm]

theorem Memory.wfFrom_cell {m : Memory} {lo a : Nat} (v : Byte) (hl : lo ≤ a) (h : Memory.wfFrom (a + 1) m = true) :
    Memory.wfFrom lo (Memory.cell a v m) = true := by
  unfold Memory.cell
  split
  · exact Memory.wfFrom_mono (by omega) h
  · next hv => simp [Memory.wfFrom, hl, hv, h]

/-- A write keeps the canonical form. -/
theorem Memory.wfFrom_write {lo a : Nat} (v : Byte) (hl : lo ≤ a) : ∀ {m : Memory}, Memory.wfFrom lo m = true →
    Memory.wfFrom lo (m.write a v) = true
  | [], _ => Memory.wfFrom_cell v hl rfl
  | (k, w) :: m, h => by
    have h' := h
    simp only [Memory.wfFrom, Bool.and_eq_true, decide_eq_true_eq] at h'
    unfold Memory.write
    split
    · refine Memory.wfFrom_cell v hl ?_
      simp [Memory.wfFrom, h'.1.2, h'.2]; omega
    · split
      · next ha => subst ha; exact Memory.wfFrom_cell v hl h'.2
      · have := Memory.wfFrom_write v (lo := k + 1) (a := a) (by omega) h'.2
        simp [Memory.wfFrom, h'.1.1, h'.1.2, this]

/-- Reading after writing: the address written gives the byte written, every other address what it gave before. -/
theorem Memory.read_write_from {lo a : Nat} (v : Byte) (x : Nat) : ∀ {m : Memory}, Memory.wfFrom lo m = true →
    (m.write a v).read x = if x = a then v else m.read x
  | [], _ => Memory.read_cell v rfl x
  | (k, w) :: m, h => by
    have h' := h
    simp only [Memory.wfFrom, Bool.and_eq_true, decide_eq_true_eq] at h'
    unfold Memory.write
    split
    · refine Memory.read_cell v ?_ x
      simp [Memory.wfFrom, h'.1.2, h'.2]; omega
    · split
      · next ha =>
          subst ha
          rw [Memory.read_cell v h'.2 x, Memory.read_cons]
          split
          · rfl
          · next hx => rw [if_neg (Ne.symm hx)]
      · next ha =>
          rw [Memory.read_cons, Memory.read_cons, Memory.read_write_from v x h'.2]
          split
          · next hk => subst hk; rw [if_neg (Ne.symm ha)]
          · rfl

theorem Memory.wf_write {m : Memory} (a : Nat) (v : Byte) (h : m.wf = true) : (m.write a v).wf = true :=
  Memory.wfFrom_write v (Nat.zero_le a) h

theorem Memory.read_write {m : Memory} (a : Nat) (v : Byte) (x : Nat) (h : m.wf = true) :
    (m.write a v).read x = if x = a then v else m.read x :=
  Memory.read_write_from v x h

theorem Memory.within_cell {n a : Nat} {m : Memory} (v : Byte) (ha : a < n) (h : Memory.within n m = true) :
    Memory.within n (Memory.cell a v m) = true := by
  unfold Memory.cell
  split
  · exact h
  · simp only [Memory.within, List.all_cons, Bool.and_eq_true, decide_eq_true_eq]; exact ⟨ha, h⟩

/-- A write to an address that exists lists no address that does not. -/
theorem Memory.within_write {n a : Nat} (v : Byte) (ha : a < n) : ∀ {m : Memory}, Memory.within n m = true →
    Memory.within n (m.write a v) = true
  | [], _ => Memory.within_cell v ha rfl
  | (k, w) :: m, h => by
    have h' := h
    simp only [Memory.within, List.all_cons, Bool.and_eq_true, decide_eq_true_eq] at h'
    unfold Memory.write
    split
    · exact Memory.within_cell v ha h
    · split
      · exact Memory.within_cell v ha h'.2
      · simp only [Memory.within, List.all_cons, Bool.and_eq_true, decide_eq_true_eq]
        exact ⟨h'.1, Memory.within_write v ha h'.2⟩

/-- The array of a list of bytes is canonical and starts at its base. -/
theorem Memory.wfFrom_ofBytes (a : Nat) : ∀ vs : List Byte, Memory.wfFrom a (Memory.ofBytes a vs) = true
  | [] => rfl
  | v :: vs => Memory.wfFrom_cell v (Nat.le_refl a) (Memory.wfFrom_ofBytes (a + 1) vs)

theorem Memory.within_ofBytes (n : Nat) : ∀ (a : Nat) (vs : List Byte), a + vs.length ≤ n →
    Memory.within n (Memory.ofBytes a vs) = true
  | _, [], _ => rfl
  | a, v :: vs, h => by
    simp only [List.length_cons] at h
    exact Memory.within_cell v (by omega) (Memory.within_ofBytes n (a + 1) vs (by omega))

/-- The array of a list of bytes holds those bytes from its base on. -/
theorem Memory.read_ofBytes : ∀ (a : Nat) (vs : List Byte) (k : Nat) (h : k < vs.length),
    (Memory.ofBytes a vs).read (a + k) = vs[k]
  | a, v :: vs, 0, _ => by
    rw [Memory.ofBytes, Memory.read_cell v (Memory.wfFrom_ofBytes (a + 1) vs)]; simp
  | a, v :: vs, k + 1, h => by
    rw [Memory.ofBytes, Memory.read_cell v (Memory.wfFrom_ofBytes (a + 1) vs), if_neg (by omega)]
    have := Memory.read_ofBytes (a + 1) vs k (by simpa using h)
    rw [Nat.add_assoc, Nat.add_comm 1 k] at this
    simpa using this

/-- Two canonical arrays with the same bytes are the same data. -/
theorem Memory.ext_read {lo : Nat} : ∀ {m m' : Memory}, Memory.wfFrom lo m = true → Memory.wfFrom lo m' = true →
    (∀ a, m.read a = m'.read a) → m = m'
  | [], [], _, _, _ => rfl
  | [], (k, w) :: m', _, h', hr => by
    have := hr k
    simp only [Memory.wfFrom, Bool.and_eq_true, decide_eq_true_eq] at h'
    simp only [Memory.read_nil, Memory.read_cons, if_true] at this
    exact absurd this.symm h'.1.2
  | (k, w) :: m, [], h, _, hr => by
    have := hr k
    simp only [Memory.wfFrom, Bool.and_eq_true, decide_eq_true_eq] at h
    simp only [Memory.read_nil, Memory.read_cons, if_true] at this
    exact absurd this h.1.2
  | (k, w) :: m, (k', w') :: m', h, h', hr => by
    simp only [Memory.wfFrom, Bool.and_eq_true, decide_eq_true_eq] at h h'
    have hk : k = k' := by
      rcases Nat.lt_trichotomy k k' with hlt | heq | hgt
      · have := hr k
        rw [Memory.read_cons, if_pos rfl, Memory.read_cons, if_neg (by omega), Memory.read_below h'.2 (by omega)] at this
        exact absurd this h.1.2
      · exact heq
      · have := hr k'
        rw [Memory.read_cons, if_neg (by omega), Memory.read_below h.2 (by omega), Memory.read_cons, if_pos rfl] at this
        exact absurd this.symm h'.1.2
    subst hk
    have hw : w = w' := by simpa [Memory.read_cons] using hr k
    subst hw
    have ht : m = m' := Memory.ext_read h.2 h'.2 fun a => by
      have := hr a
      rw [Memory.read_cons, Memory.read_cons] at this
      split at this
      · next hka => subst hka
                    rw [Memory.read_below h.2 (Nat.lt_succ_self _), Memory.read_below h'.2 (Nat.lt_succ_self _)]
      · exact this
    rw [ht]

end Sys2Proof.Machine
end

