-- ==== Sys2Proof/Laws/PerInstr.lean ====
section
/-! SUPPORT. Facts about every instruction as syntax, one lemma for each constructor. -/

/-- The encoding fills the footprint of R85, and its first byte is an opcode of the map of R87. -/
def Sys2Proof.Laws.EncodedLength.Statement (i : Sys2Proof.Instr) : Prop :=
  (Sys2Proof.encode i).length = i.footprint ∧ i.footprint ≤ Sys2Proof.maxFootprint ∧
    ∃ opc rest, Sys2Proof.encode i = opc :: rest ∧ opc.toNat < 12

namespace Sys2Proof.Laws.EncodedLength

theorem halt : Statement .halt := ⟨rfl, Nat.le_of_ble_eq_true rfl, _, _, rfl, by decide⟩
theorem add (sel imm : Byte) : Statement (.add sel imm) := ⟨rfl, Nat.le_of_ble_eq_true rfl, _, _, rfl, by decide⟩
theorem sub (sel imm : Byte) : Statement (.sub sel imm) := ⟨rfl, Nat.le_of_ble_eq_true rfl, _, _, rfl, by decide⟩
theorem mult (sel imm : Byte) : Statement (.mult sel imm) := ⟨rfl, Nat.le_of_ble_eq_true rfl, _, _, rfl, by decide⟩
theorem div (sel imm : Byte) : Statement (.div sel imm) := ⟨rfl, Nat.le_of_ble_eq_true rfl, _, _, rfl, by decide⟩
theorem jmp (ign ptr : Byte) : Statement (.jmp ign ptr) := ⟨rfl, Nat.le_of_ble_eq_true rfl, _, _, rfl, by decide⟩
theorem jmpIfA (sel ign ptr : Byte) : Statement (.jmpIfA sel ign ptr) := ⟨rfl, Nat.le_of_ble_eq_true rfl, _, _, rfl, by decide⟩
theorem jmpIfB (sel ign ptr : Byte) : Statement (.jmpIfB sel ign ptr) := ⟨rfl, Nat.le_of_ble_eq_true rfl, _, _, rfl, by decide⟩
theorem push (ign imm : Byte) : Statement (.push ign imm) := ⟨rfl, Nat.le_of_ble_eq_true rfl, _, _, rfl, by decide⟩
theorem pop (ign : Byte) : Statement (.pop ign) := ⟨rfl, Nat.le_of_ble_eq_true rfl, _, _, rfl, by decide⟩
theorem mov (dsel ssel : Byte) : Statement (.mov dsel ssel) := ⟨rfl, Nat.le_of_ble_eq_true rfl, _, _, rfl, by decide⟩
theorem print (sel : Byte) : Statement (.print sel) := ⟨rfl, Nat.le_of_ble_eq_true rfl, _, _, rfl, by decide⟩

end Sys2Proof.Laws.EncodedLength
end

