-- ==== Sys2Proof/Tests/Slice0.lean ====
section
/-! SUPPORT. Tests on fixed values, each expected result from spec/ (the place is in the comment), and for every obligation
with hypotheses a witness that they can be met, at the boundary values of each clause. -/

namespace Sys2Proof.Tests

open Sys2Proof.Machine

/-! ### Helpers -/

/-- Reset with the bytes in RAM from address `o` on, IC at `o`, and the registers and STACK given. -/
def bootAt (o : Nat) (bytes : List Byte) (a b : Byte) (stack : List Byte) : State :=
  { State.reset with ram := Memory.ofBytes o bytes, ic := o, regA := a, regB := b, stack := stack }

/-- `bootAt` address 0. -/
def boot (bytes : List Byte) (a b : Byte) (stack : List Byte) : State := bootAt 0 bytes a b stack

def isNext (o : Host.Outcome State Fault Refusal) (t : State) : Bool :=
  match o with
  | .next u => decide (u = t)
  | .fault _ => false
  | .refused _ => false

def isFault (o : Host.Outcome State Fault Refusal) (f : Fault) : Bool :=
  match o with
  | .next _ => false
  | .fault g => decide (g = f)
  | .refused _ => false

/-- A small memory, so that a test can write a whole image. -/
def smallConfig : Config := { Config.hardware with memSize := 5 }

def depthTwo : Config := { Config.hardware with stackDepth := some 2 }

def legacy : Config := { Config.hardware with legacyPlaceholders := true }

/-! ### WellFormed refuses an ill-formed term of each check (R92; the selector values of R115) -/

theorem test_wellFormed_refuses_add : (Instr.add 0 5).wellFormed = false := by decide
theorem test_wellFormed_refuses_sub : (Instr.sub 3 5).wellFormed = false := by decide
theorem test_wellFormed_refuses_mult : (Instr.mult 0x81 5).wellFormed = false := by decide
theorem test_wellFormed_refuses_div : (Instr.div 255 5).wellFormed = false := by decide
theorem test_wellFormed_refuses_jmpIfA : (Instr.jmpIfA 2 0 4).wellFormed = false := by decide
theorem test_wellFormed_refuses_jmpIfB : (Instr.jmpIfB 1 0 4).wellFormed = false := by decide
theorem test_wellFormed_refuses_mov_destination : (Instr.mov 0 2).wellFormed = false := by decide
theorem test_wellFormed_refuses_mov_source : (Instr.mov 1 3).wellFormed = false := by decide
theorem test_wellFormed_refuses_print : (Instr.print 9).wellFormed = false := by decide
theorem test_wellFormed_accepts : [Instr.halt, .add 1 0, .sub 2 0, .mult 1 9, .div 2 0, .jmp 7 7, .jmpIfA 1 7 7,
    .jmpIfB 2 7 7, .push 7 7, .pop 7, .mov 1 2, .print 2].all Instr.wellFormed = true := by decide

/-! ### Decoding: words written out from the formats of R83 and the opcodes of R87 -/

theorem test_decode_halt : decode [0x00] = .ok .halt := by decide
theorem test_decode_add : decode [0x01, 0x02, 0xFA] = .ok (.add 2 250) := by decide
theorem test_decode_sub : decode [0x02, 0x01, 0x14] = .ok (.sub 1 20) := by decide
theorem test_decode_mult : decode [0x03, 0x02, 0x03] = .ok (.mult 2 3) := by decide
theorem test_decode_div : decode [0x04, 0x01, 0x0A] = .ok (.div 1 10) := by decide
theorem test_decode_jmp : decode [0x05, 0x77, 0x04, 0x00] = .ok (.jmp 0x77 4) := by decide
theorem test_decode_jmpIfA : decode [0x06, 0x01, 0x55, 0x04] = .ok (.jmpIfA 1 0x55 4) := by decide
theorem test_decode_jmpIfB : decode [0x07, 0x02, 0x55, 0x04] = .ok (.jmpIfB 2 0x55 4) := by decide
theorem test_decode_push : decode [0x08, 0x99, 0x2A] = .ok (.push 0x99 42) := by decide
theorem test_decode_pop : decode [0x09, 0x99] = .ok (.pop 0x99) := by decide
theorem test_decode_mov : decode [0x0A, 0x02, 0x01] = .ok (.mov 2 1) := by decide
theorem test_decode_print : decode [0x0B, 0x09] = .ok (.print 9) := by decide
theorem test_decode_refuses_0C_80_FF : decode [0x0C] = .error (.invalidOpcode 12) ∧
    decode [0x80] = .error (.invalidOpcode 128) ∧ decode [0xFF] = .error (.invalidOpcode 255) := by decide
theorem test_decode_refuses_too_few_bytes :
    decode [] = .error .noBytes ∧ decode [0x06, 0x01, 0x55] = .error (.truncated 6 3) := by decide

/-- The table numbers bits from the first byte up: the second byte is bits 15..8. -/
theorem test_decodeTableWord : decodeTableWord 24 0xFA0201 = some (.add 2 250) ∧
    decodeTableWord 8 0x06 = some (.jmpIfA 0 0 0) ∧ decodeTableWord 8 0x0C = none := by decide

theorem test_withFetchWord_runs_first : isNext (step (State.reset.withFetchWord 24 0x050101))
    { boot [0x01, 0x01, 0x05] 5 0 [] with ic := 3, report := .ok } = true := by decide

/-! ### One step of each instruction (95_test_vectors.md, by section) -/

/-- 2.2. -/
theorem test_add_of_b_writes_a_and_wraps : isNext (step (boot [0x01, 0x02, 0xFA] 7 7 []))
    { boot [0x01, 0x02, 0xFA] 1 7 [] with ic := 3, report := .ok } = true := by decide
/-- 2.6: the selector is tested before the immediate's address. -/
theorem test_add_selector_before_immediate_address :
    isFault (step (bootAt 65533 [0x01, 0x07] 0 0 [])) (.invalidRegisterSelector 65534 7) = true := by decide

/-- 2.2. -/
theorem test_sub_borrow_wraps : isNext (step (boot [0x02, 0x01, 0x14] 15 0 []))
    { boot [0x02, 0x01, 0x14] 251 0 [] with ic := 3, report := .ok } = true := by decide
/-- 2.2. -/
theorem test_sub_of_b : isNext (step (boot [0x02, 0x02, 0x03] 100 2 []))
    { boot [0x02, 0x02, 0x03] 255 2 [] with ic := 3, report := .ok } = true := by decide

/-- 2.2. -/
theorem test_mult_of_b : isNext (step (boot [0x03, 0x02, 0x03] 1 100 []))
    { boot [0x03, 0x02, 0x03] 44 100 [] with ic := 3, report := .ok } = true := by decide
/-- 2.2. -/
theorem test_mult_255_255 : isNext (step (boot [0x03, 0x01, 0xFF] 255 0 []))
    { boot [0x03, 0x01, 0xFF] 1 0 [] with ic := 3, report := .ok } = true := by decide

/-- 2.2. -/
theorem test_div_of_b_floor : isNext (step (boot [0x04, 0x02, 0x03] 9 200 []))
    { boot [0x04, 0x02, 0x03] 66 200 [] with ic := 3, report := .ok } = true := by decide
/-- 2.2: a zero divisor faults; an illegal selector is reported before it. -/
theorem test_div_faults : isFault (step (boot [0x04, 0x02, 0x00] 9 0 [])) .divisionByZero = true ∧
    isFault (step (boot [0x04, 0x03, 0x00] 9 0 [])) (.invalidRegisterSelector 1 3) = true := by decide

/-- 2.3. -/
theorem test_jmp_through_memory : isNext (step (boot [0x05, 0x77, 0x04, 0x00, 0x09] 0 0 []))
    { boot [0x05, 0x77, 0x04, 0x00, 0x09] 0 0 [] with ic := 9, report := .ok } = true := by decide
/-- 2.3: the pointer names the instruction's own ignored byte. -/
theorem test_jmp_own_ignored_byte : isNext (step (boot [0x05, 0x77, 0x01] 0 0 []))
    { boot [0x05, 0x77, 0x01] 0 0 [] with ic := 119, report := .ok } = true := by decide

/-- 2.3. -/
theorem test_jmpIfA_taken : isNext (step (boot [0x06, 0x01, 0x55, 0x04, 0x20] 0 9 []))
    { boot [0x06, 0x01, 0x55, 0x04, 0x20] 0 9 [] with ic := 32, report := .ok } = true := by decide
/-- 2.6: not taken at 65532 does not touch 65535; taken there faults. -/
theorem test_jmpIfA_at_the_end_of_ram :
    isNext (step (bootAt 65532 [0x06, 0x01, 0x00] 1 0 []))
      { bootAt 65532 [0x06, 0x01, 0x00] 1 0 [] with ic := 65535, report := .ok } = true ∧
    isFault (step (bootAt 65532 [0x06, 0x01, 0x00] 0 0 [])) (.addressOutOfRange 65535) = true := by decide

/-- 2.3. -/
theorem test_jmpIfB_not_taken : isNext (step (boot [0x07, 0x02, 0x55, 0x04, 0x20] 0 9 []))
    { boot [0x07, 0x02, 0x55, 0x04, 0x20] 0 9 [] with ic := 3, report := .ok } = true := by decide
/-- 2.3. -/
theorem test_jmpIfB_mismatch :
    isFault (step (boot [0x07, 0x01, 0x55, 0x04, 0x20] 0 0 [])) (.registerSelectorMismatch 1 .a) = true := by decide

/-- 2.4. -/
theorem test_push : isNext (step (boot [0x08, 0x99, 0x2A] 0 0 [1]))
    { boot [0x08, 0x99, 0x2A] 0 0 [1, 42] with ic := 3, report := .ok } = true := by decide
/-- 2.4, with STACK_DEPTH = 2. -/
theorem test_push_overflow : isFault (stepIn depthTwo (boot [0x08, 0x00, 0x07] 0 0 [1, 2])) .stackOverflow = true ∧
    isNext (stepIn depthTwo (boot [0x08, 0x00, 0x07] 0 0 [1]))
      { boot [0x08, 0x00, 0x07] 0 0 [1, 7] with ic := 3, report := .ok } = true := by decide

/-- 2.4: the top is the last byte written. -/
theorem test_pop : isNext (step (boot [0x09, 0x99] 0 0 [1, 2]))
    { boot [0x09, 0x99] 0 0 [1] with ic := 2, report := .ok } = true := by decide
/-- 2.6. -/
theorem test_pop_at_the_last_address : isNext (step (bootAt 65534 [0x09] 0 0 [5]))
    { bootAt 65534 [0x09] 0 0 [] with ic := 65536, report := .ok } = true ∧
    isFault (step (bootAt 65534 [0x09] 0 0 [])) .stackUnderflow = true := by decide

/-- 2.5: the destination comes first. -/
theorem test_mov_to_b : isNext (step (boot [0x0A, 0x02, 0x01] 7 3 []))
    { boot [0x0A, 0x02, 0x01] 7 7 [] with ic := 3, report := .ok } = true := by decide
/-- 2.5: the destination is checked first. -/
theorem test_mov_destination_first :
    isFault (step (boot [0x0A, 0x00, 0x09] 7 3 [])) (.invalidRegisterSelector 1 0) = true := by decide

/-- 2.5. -/
theorem test_print_b : isNext (step (boot [0x0B, 0x02] 7 3 []))
    { boot [0x0B, 0x02] 7 3 [] with out := [{ reg := .b, value := 3 }], ic := 2, report := .ok } = true := by decide
/-- 2.5, with LEGACY_PLACEHOLDERS. -/
theorem test_legacy_placeholders : isFault (stepIn legacy (boot [0x0B, 0x01] 7 3 [])) (.unimplemented 0 11) = true ∧
    isFault (stepIn legacy (boot [0x0A, 0x02, 0x01] 7 3 [])) (.unimplemented 0 10) = true := by decide

/-- 2.5. -/
theorem test_halt_changes_nothing : isNext (step (boot [0x00] 7 3 [1])) { boot [0x00] 7 3 [1] with report := .halted } = true := by
  decide

/-- 2.6. -/
theorem test_fetch_faults : isFault (step (boot [0x0C] 0 0 [])) (.invalidOpcode 0 12) = true ∧
    isFault (step { State.reset with ic := 65535 }) (.addressOutOfRange 65535) = true := by decide

/-! ### Memory and host operations -/

theorem test_reset_memory_is_canonical : State.reset.ram.wf = true ∧ State.reset.rom.wf = true := by decide

/-- Writing what an unlisted address reads as removes the entry; equal memories are equal lists. -/
theorem test_write_keeps_the_canonical_form :
    (Memory.write (Memory.write [] 7 0xAA) 3 0xBB) = [(3, 0xBB), (7, 0xAA)] ∧
      Memory.write [(3, 0xBB), (7, 0xAA)] 7 0x00 = [(3, 0xBB)] := by decide

/-- 2.7: LoadRAM overwrites every byte and nothing else. -/
theorem test_loadRam : hostOpIn smallConfig (.loadRam [0x01, 0x01, 0x05, 0x00, 0x00]) (bootAt 4 [0xAA] 9 0 [1]) =
    .ok (.done, { boot [0x01, 0x01, 0x05] 9 0 [1] with ic := 4 }) := by decide

/-- 2.7: a program in ROM only is not run; after CopyRomToRam it is. -/
theorem test_rom_needs_the_copy :
    hostRunIn smallConfig [.reset, .loadRom [0x01, 0x01, 0x05, 0x00, 0x00], .step] State.reset =
      .ok ([.done, .done, .stepped .halted none],
        { State.reset with rom := Memory.ofBytes 0 [0x01, 0x01, 0x05], report := .halted }) ∧
    hostRunIn smallConfig [.reset, .loadRom [0x01, 0x01, 0x05, 0x00, 0x00], .copyRomToRam, .step] State.reset =
      .ok ([.done, .done, .done, .stepped .ok none],
        { boot [0x01, 0x01, 0x05] 5 0 [] with rom := Memory.ofBytes 0 [0x01, 0x01, 0x05], ic := 3, report := .ok }) := by
  decide

/-- 2.7. -/
theorem test_observe : hostOp .observe { State.reset with regA := 5, regB := 12, ic := 3, stack := [7, 9] } =
    .ok (.observed { regA := 5, regB := 12, ic := 3, stackLength := 2 },
      { State.reset with regA := 5, regB := 12, ic := 3, stack := [7, 9] }) := by decide

/-- 2.1: a PRINT step hands the sink its event. -/
theorem test_step_hands_the_event : hostOp .step (boot [0x0B, 0x01] 7 3 []) =
    .ok (.stepped .ok (some { reg := .a, value := 7 }),
      { boot [0x0B, 0x01] 7 3 [] with out := [{ reg := .a, value := 7 }], ic := 2, report := .ok }) := by decide

/-! ### Witnesses: the hypotheses of each obligation can be met -/

theorem witness_StepRunsTheDecodedInstruction :
    let s := bootAt 65531 [0x06, 0x01, 0x55, 0x04] 1 0 []
    let u := bootAt 65534 [0x09] 0 0 []
    (s.ic < 65535 ∧ decode [s.ram.read s.ic, s.ram.read (s.ic + 1), s.ram.read (s.ic + 2), s.ram.read (s.ic + 3)] =
      .ok (.jmpIfA 1 0x55 4)) ∧
    (u.ic < 65535 ∧ decode [u.ram.read u.ic, u.ram.read (u.ic + 1), u.ram.read (u.ic + 2), u.ram.read (u.ic + 3)] =
      .ok (.pop 0)) := by decide

theorem witness_StepRunsTheEncodedInstruction :
    let s := bootAt 65532 [0x01, 0x02, 0xFA] 1 0 []
    s.ic < 65535 ∧ ∀ (k : Nat) (h : k < (encode (.add 2 0xFA)).length), s.ram.read (s.ic + k) = (encode (.add 2 0xFA))[k] := by
  decide

theorem witness_PlacedInstructionIsRun :
    let s := bootAt 65531 [0xAA, 0xBB] 0 0 []
    s.ram.wf = true ∧ s.ic + 3 < 65535 ∧ decodeTableWord 24 0x050101 = some (.add 1 5) ∧
      decodeTableWord 8 0x01 = some (.add 0 0) ∧ (65530 < s.ic ∨ s.ic + 4 ≤ 65530) ∧ (65535 < s.ic ∨ s.ic + 4 ≤ 65535) := by
  decide

theorem witness_FetchOutsideRamFaults :
    65535 ≤ (bootAt 65535 [] 0 0 []).ic ∧ 65535 ≤ (bootAt 65536 [] 0 0 []).ic := by decide

theorem witness_IllegalOpcodeFaults :
    let s := bootAt 65534 [0x0C] 0 0 []
    let u := boot [0xFF] 0 0 []
    (s.ic < 65535 ∧ 12 ≤ (s.ram.read s.ic).toNat) ∧ (u.ic < 65535 ∧ 12 ≤ (u.ram.read u.ic).toNat) := by decide

theorem witness_SelectorDecoding :
    decodeSel Config.hardware 65534 1 = .ok .a ∧ decodeSel Config.hardware 65534 2 = .ok .b ∧
      ((0 : Byte) ≠ 1 ∧ (0 : Byte) ≠ 2 ∧ (65534 : Nat) < 65535) ∧
      decodeSel Config.hardware 65534 0x81 = .error (.invalidRegisterSelector 65534 0x81) ∧
      decodeSel Config.hardware 65535 1 = .error (.addressOutOfRange 65535) := by decide

/-- The ranges that the statements of the four arithmetic instructions and of MOV divide IC into. -/
theorem witness_ArithmeticAndMovClauses :
    (bootAt 65532 [] 0 0 []).ic + 2 < 65535 ∧ 65535 ≤ (bootAt 65534 [] 0 0 []).ic + 1 ∧
      ((bootAt 65533 [] 0 0 []).ic + 1 < 65535 ∧ (7 : Byte) ≠ 1 ∧ (7 : Byte) ≠ 2) ∧
      ((bootAt 65533 [] 0 0 []).ic + 1 < 65535 ∧ 65535 ≤ (bootAt 65533 [] 0 0 []).ic + 2 ∧
        ((2 : Byte) = 1 ∨ (2 : Byte) = 2)) := by decide

theorem witness_AddWritesTheSumToA :
    let s := bootAt 65529 [] 255 0 []
    let t := { s with regA := 0, ic := 65532, report := .ok }
    s.ic + 2 < 65535 ∧ exec (.add 1 1) s = .next t ∧ exec (.sub 1 1) t = .next { s with ic := 65535, report := .ok } :=
  ⟨by decide, rfl, rfl⟩

theorem witness_SubWritesTheDifferenceToA :
    let s := bootAt 65532 [] 0 5 []
    s.ic + 2 < 65535 ∧ exec (.sub 1 1) s = .next { s with regA := 255, ic := 65535, report := .ok } ∧
      exec (.sub 2 5) s = .next { s with regA := 0, ic := 65535, report := .ok } := ⟨by decide, rfl, rfl⟩

theorem witness_MultWritesTheLowProductToA :
    let s := bootAt 65532 [] 16 100 []
    s.ic + 2 < 65535 ∧ exec (.mult 1 16) s = .next { s with regA := 0, ic := 65535, report := .ok } ∧
      exec (.mult 2 3) s = .next { s with regA := 44, ic := 65535, report := .ok } := ⟨by decide, rfl, rfl⟩

theorem witness_DivWritesTheFloorQuotientToA :
    let s := bootAt 65532 [0x04, 0x01, 0x00] 255 200 []
    (s.ic + 2 < 65535 ∧ (255 : Byte) ≠ 0 ∧ exec (.div 1 255) s = .next { s with regA := 1, ic := 65535, report := .ok }) ∧
      (s.ic + 2 < 65535 ∧ (0 : Byte) = 0 ∧ ((1 : Byte) = 1 ∨ (1 : Byte) = 2)) ∧
      stepResultIn Config.hardware s = .ok (.fault .divisionByZero, s) := ⟨⟨by decide, by decide, rfl⟩, by decide, rfl⟩

theorem witness_JmpGoesThroughMemory :
    let s := bootAt 65532 [] 0 0 []
    (s.ic + 2 < 65535 ∧ exec (.jmp 9 255) s = .next { s with ic := 0, report := .ok }) ∧
      65535 ≤ (bootAt 65533 [] 0 0 []).ic + 2 := ⟨⟨by decide, rfl⟩, by decide⟩

theorem witness_JmpIfATestsAForZero :
    let s := bootAt 65533 [] 1 0 []
    let u := bootAt 65531 [] 0 0 []
    (s.ic + 1 < 65535 ∧ s.regA ≠ 0) ∧ (u.ic + 3 < 65535 ∧ u.regA = 0) ∧ 65535 ≤ (bootAt 65534 [] 0 0 []).ic + 1 ∧
      (s.ic + 1 < 65535 ∧ (3 : Byte) ≠ 1 ∧ (3 : Byte) ≠ 2) ∧
      ((bootAt 65532 [] 0 0 []).ic + 1 < 65535 ∧ 65535 ≤ (bootAt 65532 [] 0 0 []).ic + 3 ∧
        (bootAt 65532 [] 0 0 []).regA = 0) := by decide

theorem witness_JmpIfBTestsBForZero :
    let s := bootAt 65533 [] 0 1 []
    let u := bootAt 65531 [] 0 0 []
    (s.ic + 1 < 65535 ∧ s.regB ≠ 0) ∧ (u.ic + 3 < 65535 ∧ u.regB = 0) ∧ 65535 ≤ (bootAt 65534 [] 0 0 []).ic + 1 ∧
      (s.ic + 1 < 65535 ∧ (3 : Byte) ≠ 1 ∧ (3 : Byte) ≠ 2) ∧
      ((bootAt 65532 [] 0 0 []).ic + 1 < 65535 ∧ 65535 ≤ (bootAt 65532 [] 0 0 []).ic + 3 ∧
        (bootAt 65532 [] 0 0 []).regB = 0) := by decide

theorem witness_ConditionalJumpSharesItsLastByte :
    let s := bootAt 65531 [0x06, 0x01, 0x55, 0x08] 0 1 []
    let u := bootAt 65531 [0x07, 0x02, 0x55, 0x08] 0 1 []
    (s.ic + 3 < 65535 ∧ s.ram.read s.ic = 0x06 ∧ s.ram.read (s.ic + 1) = 1 ∧ s.reg .a = 0) ∧
      (u.ic + 3 < 65535 ∧ u.ram.read u.ic = 0x07 ∧ u.ram.read (u.ic + 1) = 2 ∧ u.reg .b ≠ 0) := by decide

theorem witness_TakenConditionalJumpIsAJmp :
    let s := bootAt 65533 [] 0 0 []
    s.ic + 1 < 65535 ∧ s.regA = 0 ∧ s.regB = 0 := by decide

theorem witness_TakenJumpsReachOnlyTheFirstPage :
    let s := boot [0x05, 0x00, 0x03, 0xFF] 0 0 []
    let u := boot [0x06, 0x01, 0x00, 0x04, 0xFF] 0 1 []
    let v := boot [0x07, 0x02, 0x00, 0x04, 0xFF] 1 0 []
    (step s = .next { s with ic := 255, report := .ok } ∧ s.ram.read s.ic = 0x05) ∧
      (step u = .next { u with ic := 255, report := .ok } ∧ u.ram.read u.ic = 0x06 ∧ u.regA = 0) ∧
      (step v = .next { v with ic := 255, report := .ok } ∧ v.ram.read v.ic = 0x07 ∧ v.regB = 0) :=
  ⟨⟨rfl, by decide⟩, ⟨rfl, by decide⟩, ⟨rfl, by decide⟩⟩

theorem witness_PushAppendsTheImmediate :
    let s := bootAt 65532 [] 0 0 [1, 2]
    (s.ic + 2 < Config.hardware.memSize ∧ Config.hardware.stackDepth ≠ some s.stack.length) ∧
      (s.ic + 2 < depthTwo.memSize ∧ depthTwo.stackDepth = some s.stack.length) ∧
      depthTwo.memSize ≤ (bootAt 65533 [] 0 0 []).ic + 2 ∧ 65535 ≤ (bootAt 65533 [] 0 0 []).ic + 2 := by decide

theorem witness_PopDiscardsTheTop :
    let s := bootAt 65534 [0x09] 0 0 [4, 5]
    (s.stack = [4] ++ [5] ∧ s.ic = 65534 ∧ s.ram.read 65534 = 0x09) ∧ (bootAt 65534 [0x09] 0 0 []).stack = [] := by decide

theorem witness_PushThenPopRestoresTheStack : (bootAt 65532 [] 0 0 [4, 5]).ic + 2 < 65535 := by decide

theorem witness_MovCopiesARegister :
    let s := bootAt 65532 [] 7 3 []
    (s.ic + 2 < 65535 ∧ ((1 : Byte) = 1 ∨ (1 : Byte) = 2) ∧ (0 : Byte) ≠ 1 ∧ (0 : Byte) ≠ 2) ∧
      exec (.mov 2 1) s = .next { s with regB := 7, ic := 65535, report := .ok } ∧ (7 : Byte) ≠ s.regB :=
  ⟨by decide, rfl, by decide⟩

theorem witness_PrintEmitsTheRegister :
    (bootAt 65533 [] 0 0 []).ic + 1 < 65535 ∧ 65535 ≤ (bootAt 65534 [] 0 0 []).ic + 1 ∧
      ((bootAt 65533 [] 0 0 []).ic + 1 < 65535 ∧ (255 : Byte) ≠ 1 ∧ (255 : Byte) ≠ 2) := by decide

theorem witness_HaltWritesNothingAndReportsHalted :
    (bootAt 65534 [] 0 0 []).ic < 65535 ∧ (bootAt 65534 [] 0 0 []).ram.read 65534 = 0x00 := by decide

theorem witness_LegacyPlaceholdersRaiseUnimplemented :
    legacy.legacyPlaceholders = true ∧ Config.hardware.legacyPlaceholders = false := by decide

/-- Every disjunct of the statement is met by some fault. -/
theorem witness_OnlyTheListedFaultsAreRaised :
    exec (.add 0 5) (bootAt 65533 [] 0 0 []) = .fault (.invalidRegisterSelector 65534 0) ∧
      exec (.sub 1 5) (bootAt 65534 [] 0 0 []) = .fault (.addressOutOfRange 65535) ∧
      exec (.mult 2 5) (bootAt 65533 [] 0 0 []) = .fault (.addressOutOfRange 65535) ∧
      exec (.div 2 0) (bootAt 65532 [] 0 0 []) = .fault .divisionByZero ∧
      exec (.jmp 0 0) (bootAt 65534 [] 0 0 []) = .fault (.addressOutOfRange 65536) ∧
      exec (.jmpIfA 2 0 0) (bootAt 65533 [] 1 0 []) = .fault (.registerSelectorMismatch 65534 .b) ∧
      exec (.jmpIfA 1 0 0) (bootAt 65533 [] 0 0 []) = .fault (.addressOutOfRange 65536) ∧
      exec (.jmpIfB 1 0 0) (bootAt 65533 [] 0 1 []) = .fault (.registerSelectorMismatch 65534 .a) ∧
      exec (.jmpIfB 2 0 0) (bootAt 65532 [] 0 0 []) = .fault (.addressOutOfRange 65535) ∧
      exec (.push 0 0) (bootAt 65533 [] 0 0 []) = .fault (.addressOutOfRange 65535) ∧
      exec (.pop 0) (bootAt 0 [] 0 0 []) = .fault .stackUnderflow ∧
      exec (.mov 1 3) (bootAt 65532 [] 0 0 []) = .fault (.invalidRegisterSelector 65534 3) ∧
      exec (.print 1) (bootAt 65534 [] 0 0 []) = .fault (.addressOutOfRange 65535) := by
  refine ⟨rfl, rfl, rfl, rfl, rfl, rfl, rfl, rfl, rfl, rfl, rfl, rfl, rfl⟩

/-- Both sides of each equivalence of the four `…IsRaisedExactlyThen` statements are met. -/
theorem witness_FaultsAreRaised :
    exec (.mov 2 0) (bootAt 65532 [] 0 0 []) = .fault (.invalidRegisterSelector 65534 0) ∧
      exec (.jmpIfA 2 0 0) (bootAt 65533 [] 0 0 []) = .fault (.registerSelectorMismatch 65534 .b) ∧
      exec (.div 1 0) (bootAt 65532 [] 0 0 []) = .fault .divisionByZero ∧
      stepResultIn Config.hardware (boot [0x04, 0x02, 0x00] 9 0 []) =
        .ok (.fault .divisionByZero, boot [0x04, 0x02, 0x00] 9 0 []) ∧
      exec (.pop 7) (boot [] 0 0 []) = .fault .stackUnderflow ∧
      execIn depthTwo (.push 7 7) (bootAt 65532 [] 0 0 [1, 2]) = .fault .stackOverflow :=
  ⟨rfl, rfl, rfl, rfl, rfl, rfl⟩

theorem witness_AddressFaultsComeFromTheEndOfRam :
    step (bootAt 65535 [] 0 0 []) = .fault (.addressOutOfRange 65535) ∧
      step (bootAt 65532 [0x06, 0x01, 0x00] 0 0 []) = .fault (.addressOutOfRange 65535) ∧
      step (bootAt 65534 [0x05] 0 0 []) = .fault (.addressOutOfRange 65536) := ⟨rfl, rfl, rfl⟩

theorem witness_HaltedAndFaultedStepsChangeNothingAndRepeat :
    stepResultIn Config.hardware (boot [0x00] 7 3 [1]) = .ok (.halted, { boot [0x00] 7 3 [1] with report := .halted }) ∧
      StepResult.halted ≠ .ok ∧
      stepResultIn legacy (boot [0x0B, 0x01] 7 3 []) = .ok (.fault (.unimplemented 0 11), boot [0x0B, 0x01] 7 3 []) ∧
      StepResult.fault (.unimplemented 0 11) ≠ .ok := ⟨rfl, by decide, rfl, by decide⟩

theorem witness_NoInstructionWritesMemory :
    let s := { boot [0x08, 0x00, 0x11] 0 0 [] with rom := [(7, 0xAA)] }
    step s = .next { s with stack := [17], ic := 3, report := .ok } ∧
      hostOp .copyRomToRam s = .ok (.done, { s with ram := s.rom }) ∧ s.rom ≠ s.ram ∧
      hostOp .reset s = .ok (.done, State.reset) ∧ State.reset.ram ≠ s.ram ∧ State.reset.rom ≠ s.rom :=
  ⟨rfl, rfl, by decide, rfl, by decide, by decide⟩

theorem witness_RegistersAreWrittenOnlyByTheirWriters :
    let s := boot [0x0A, 0x02, 0x01] 7 3 []
    let u := boot [0x01, 0x01, 0x01] 255 3 []
    let v := boot [0x0A, 0x01, 0x02] 7 3 []
    (step s = .next { s with regB := 7, ic := 3, report := .ok } ∧ (7 : Byte) ≠ s.regB) ∧
      (step u = .next { u with regA := 0, ic := 3, report := .ok } ∧ (0 : Byte) ≠ u.regA) ∧
      (step v = .next { v with regA := 3, ic := 3, report := .ok } ∧ (3 : Byte) ≠ v.regA) :=
  ⟨⟨rfl, by decide⟩, ⟨rfl, by decide⟩, ⟨rfl, by decide⟩⟩

theorem witness_StackAndOutputChangeOnlyByTheirInstructions :
    let s := boot [0x0B, 0x02] 7 3 [4]
    let u := boot [0x09, 0x00] 7 3 [4]
    (step s = .next { s with out := [{ reg := .b, value := 3 }], ic := 2, report := .ok } ∧ s.ram.read s.ic = 0x0B) ∧
      (step u = .next { u with stack := [], ic := 2, report := .ok } ∧ u.ram.read u.ic ≠ 0x0B) :=
  ⟨⟨rfl, by decide⟩, ⟨rfl, by decide⟩⟩

theorem witness_InstructionPointerAfterEveryStep :
    let s := bootAt 65534 [0x00] 0 0 []
    let u := bootAt 65534 [0x09] 0 0 [5]
    let v := bootAt 65534 [0x09] 0 0 []
    (step s = .next { s with report := .halted } ∧ s.ram.read s.ic = 0x00) ∧
      step u = .next { u with stack := [], ic := 65536, report := .ok } ∧
      stepResultIn Config.hardware v = .ok (.fault .stackUnderflow, v) := ⟨⟨rfl, by decide⟩, rfl, rfl⟩

/-- The last three are conditional jumps that use no pointer, with a byte at O+3 that names their ignored byte: the not-taken
jump of program P3 (95_test_vectors.md, step 3), the same with B, and one that faults on its selector. -/
theorem witness_IgnoredBytesHaveNoEffect :
    let s := boot [0x09, 0x99] 0 0 [1]
    let u := boot [0x05, 0x77, 0x04, 0x00, 0x09] 0 0 []
    let v := boot [0x06, 0x01, 0x55, 0x04, 0x20] 0 0 []
    let w := bootAt 6 [0x06, 0x01, 0x0F, 0x08, 0x00, 0xAA] 2 0 []
    let x := bootAt 6 [0x07, 0x02, 0x0F, 0x08, 0x00, 0xAA] 0 2 []
    let y := bootAt 6 [0x06, 0x02, 0x0F, 0x08] 0 0 []
    (s.ram.wf = true ∧ s.ram.read s.ic = 0x09 ∧ step s = .next { s with stack := [], ic := 2, report := .ok }) ∧
      (u.ram.wf = true ∧ u.ram.read u.ic = 0x05 ∧ (u.ram.read (u.ic + 2)).toNat ≠ u.ic + 1 ∧
        step u = .next { u with ic := 9, report := .ok }) ∧
      (v.ram.wf = true ∧ v.ram.read v.ic = 0x06 ∧ (v.ram.read (v.ic + 3)).toNat ≠ v.ic + 2 ∧
        step v = .next { v with ic := 32, report := .ok }) ∧
      (w.ram.wf = true ∧ w.ram.read w.ic = 0x06 ∧ w.regA ≠ 0 ∧ (w.ram.read (w.ic + 3)).toNat = w.ic + 2 ∧
        step w = .next { w with ic := 9, report := .ok }) ∧
      (x.ram.wf = true ∧ x.ram.read x.ic = 0x07 ∧ x.regB ≠ 0 ∧ (x.ram.read (x.ic + 3)).toNat = x.ic + 2 ∧
        step x = .next { x with ic := 9, report := .ok }) ∧
      (y.ram.wf = true ∧ y.ram.read y.ic = 0x06 ∧ y.ram.read (y.ic + 1) ≠ 1 ∧
        step y = .fault (.registerSelectorMismatch 7 .b)) :=
  ⟨⟨by decide, by decide, rfl⟩, ⟨by decide, by decide, by decide, rfl⟩, ⟨by decide, by decide, by decide, rfl⟩,
    ⟨by decide, by decide, by decide, by decide, rfl⟩, ⟨by decide, by decide, by decide, by decide, rfl⟩,
    ⟨by decide, by decide, by decide, rfl⟩⟩

theorem witness_EveryStepKeepsTheInvariant :
    let s := bootAt 65534 [0x09] 0 0 [5]
    s.Inv Config.hardware ∧ step s = .next { s with stack := [], ic := 65536, report := .ok } := ⟨by decide, rfl⟩

theorem witness_EveryHostOperationKeepsTheInvariant :
    let s := boot [0x08, 0x00, 0x11] 0 0 []
    s.Inv smallConfig ∧
      hostOpIn smallConfig (.loadRam [1, 1, 5, 0, 0]) s = .ok (.done, { s with ram := [(0, 1), (1, 1), (2, 5)] }) ∧
      hostOpIn smallConfig .step s = .ok (.stepped .ok none, { s with stack := [17], ic := 3, report := .ok }) := by decide

theorem witness_SixItemsDetermineAllBehaviour :
    let s := boot [0x0B, 0x01] 7 3 []
    let s' := { s with out := [{ reg := .b, value := 9 }], report := .halted }
    s.SameCore s' ∧
      hostRunIn Config.hardware [.step] s = .ok ([.stepped .ok (some { reg := .a, value := 7 })],
        { s with out := [{ reg := .a, value := 7 }], ic := 2, report := .ok }) ∧
      hostRunIn Config.hardware [.loadRam []] s = .error (.imageLength 0) := by decide

/-- An image of the one length that LoadRAM and LoadROM take, and one of another. -/
theorem witness_LoadRamReplacesAllOfRam :
    (List.replicate 65535 (0x00 : Byte)).length = 65535 ∧ ([] : List Byte).length ≠ 65535 :=
  ⟨List.length_replicate, by decide⟩

theorem witness_LoadRomReplacesAllOfRom :
    (List.replicate 65535 (0x0B : Byte)).length = 65535 ∧ ([0x00] : List Byte).length ≠ 65535 ∧
      step (boot [0x00] 7 3 []) = .next { boot [0x00] 7 3 [] with report := .halted } ∧
      step (boot [0x0C] 7 3 []) = .fault (.invalidOpcode 0 12) := ⟨List.length_replicate, by decide, rfl, rfl⟩

theorem witness_StepAnswersItsResultAndItsEvent :
    step (boot [0x0B, 0x01] 7 3 []) =
        .next { boot [0x0B, 0x01] 7 3 [] with out := [{ reg := .a, value := 7 }], ic := 2, report := .ok } ∧
      step (boot [0x0B, 0x00] 7 3 []) = .fault (.invalidRegisterSelector 1 0) := ⟨rfl, rfl⟩

theorem witness_BothBootSequencesLoadTheImage : (List.replicate 65535 (0x01 : Byte)).length = 65535 :=
  List.length_replicate

theorem witness_ImagesOfAnotherLengthAreRefused : ([0x01, 0x01, 0x05] : List Byte).length ≠ 65535 := by decide

end Sys2Proof.Tests
end

/-! ### Reset (R35) and the HALT byte (R164)

Zero-filled RAM holds the opcode of HALT at every address, so the first step after Reset is one of the HALT steps that
`step_of_halt_opcode` describes. -/

namespace Sys2Proof.Machine

/-- The opcode byte alone makes the fetched bytes a HALT: format Z has no operand (R83). -/
theorem decode_fetchWindow_of_halt_opcode {s : State} (hop : s.ram.read s.ic = 0x00) :
    decode (fetchWindow s) = .ok .halt := by
  rw [fetchWindow_eq, hop]
  rfl

/-- R164: a step at a HALT byte writes nothing and reports Halted. -/
theorem step_of_halt_opcode {s : State} (hic : s.ic < 65535) (hop : s.ram.read s.ic = 0x00) :
    step s = .next { s with report := .halted } :=
  step_next_iff.mpr ⟨.halt, hic, decode_fetchWindow_of_halt_opcode hop, rfl⟩

@[simp] theorem State.reset_ic : State.reset.ic = 0 := rfl

@[simp] theorem State.reset_ram_read (a : Nat) : State.reset.ram.read a = 0x00 := Memory.read_nil a

@[simp] theorem State.reset_rom_read (a : Nat) : State.reset.rom.read a = 0x00 := Memory.read_nil a

/-- Settles O1: the fields of Reset are read off its definition; the step is the HALT that zero-filled RAM holds at
address 0. -/
theorem resetLeavesTheSpecValues : Obligations.ResetLeavesTheSpecValues := by
  unfold Obligations.ResetLeavesTheSpecValues
  refine ⟨rfl, rfl, rfl, rfl, rfl, ?memory, ?step⟩
  case memory => exact fun a _ => ⟨State.reset_ram_read a, State.reset_rom_read a⟩
  case step =>
    have hic : State.reset.ic < 65535 := by simp
    exact step_of_halt_opcode hic (State.reset_ram_read _)

end Sys2Proof.Machine

/-! ### Illegal opcodes (R88, R193)

The opcode byte heads the fetched bytes. When it is none of the twelve opcodes, every test of the decoder fails and the
fetch raises InvalidOpcode, whatever bytes follow. -/

namespace Sys2Proof

/-- R88: the bytes after an illegal opcode play no part, not even by being too few. -/
theorem decode_of_illegal_opcode {opc : Byte} (hopc : 12 ≤ opc.toNat) (rest : List Byte) :
    decode (opc :: rest) = .error (.invalidOpcode opc) := by
  have hne : ∀ k : Byte, k.toNat < 12 → opc ≠ k := by
    rintro k hk rfl
    omega
  simp [decode, hne]

namespace Machine

/-- R193: the fetch raises InvalidOpcode with the address and the opcode byte, whatever the parameters. -/
theorem stepIn_of_illegal_opcode {c : Config} {s : State} (hic : s.ic < c.memSize)
    (hopc : 12 ≤ (s.ram.read s.ic).toNat) :
    stepIn c s = .fault (.invalidOpcode s.ic (s.ram.read s.ic)) := by
  have hdecode : decode (fetchWindow s) = .error (.invalidOpcode (s.ram.read s.ic)) := by
    rw [fetchWindow_eq, decode_of_illegal_opcode hopc]
  exact stepIn_eq_fault.mpr (.inl (fetchInstr_eq_error.mpr (.inr ⟨hic, _, hdecode, rfl⟩)))

/-- R197: a faulting step hands the host its fault and the state it started from. -/
theorem stepResultIn_of_fault {c : Config} {s : State} {f : Fault} (h : stepIn c s = .fault f) :
    stepResultIn c s = .ok (.fault f, s) :=
  stepResultIn_eq_ok.mpr (.inr ⟨f, h, rfl, rfl⟩)

/-- Settles O10: the fetch of an illegal opcode byte faults at every configuration, so on this hardware, and a fault
leaves the host the state as it was. -/
theorem illegalOpcodeFaults : Obligations.IllegalOpcodeFaults := by
  unfold Obligations.IllegalOpcodeFaults
  intro s hic hopc
  have hfault := stepIn_of_illegal_opcode (c := Config.hardware) hic hopc
  exact ⟨(step_eq_stepIn s).trans hfault, stepResultIn_of_fault hfault⟩

end Machine

end Sys2Proof

/-! ### Selector decoding (R115)

At every configuration the byte's address is checked before the byte is looked at, so each outcome of `decodeSel` is one
case of `decodeSel_eq_ok` or `decodeSel_eq_error`. -/

namespace Sys2Proof.Machine

/-- R115 over R13: no byte is read outside RAM, so there the byte plays no part. -/
theorem decodeSel_outside_ram {c : Config} {addr : Nat} (haddr : c.memSize ≤ addr) (b : Byte) :
    decodeSel c addr b = .error (.addressOutOfRange addr) :=
  decodeSel_eq_error.mpr (.inl ⟨haddr, rfl⟩)

theorem decodeSel_of_selReg_some {c : Config} {addr : Nat} {b : Byte} {r : Reg} (haddr : addr < c.memSize)
    (hsel : selReg b = some r) : decodeSel c addr b = .ok r :=
  decodeSel_eq_ok.mpr ⟨haddr, hsel⟩

theorem decodeSel_of_selReg_none {c : Config} {addr : Nat} {b : Byte} (haddr : addr < c.memSize)
    (hsel : selReg b = none) : decodeSel c addr b = .error (.invalidRegisterSelector addr b) :=
  decodeSel_eq_error.mpr (.inr ⟨haddr, hsel, rfl⟩)

/-- Settles O11: outside RAM the address faults; inside RAM the outcome follows the register that the byte names. -/
theorem selectorDecoding : Obligations.SelectorDecoding := by
  unfold Obligations.SelectorDecoding
  intro addr b
  refine ⟨fun haddr => decodeSel_outside_ram haddr b, fun haddr => ⟨?one, ?two, ?other⟩⟩
  case one => exact fun h1 => decodeSel_of_selReg_some haddr (selReg_eq_some.mpr (.inl ⟨h1, rfl⟩))
  case two => exact fun h2 => decodeSel_of_selReg_some haddr (selReg_eq_some.mpr (.inr ⟨h2, rfl⟩))
  case other => exact fun h1 h2 => decodeSel_of_selReg_none haddr (selReg_eq_none.mpr ⟨h1, h2⟩)

end Sys2Proof.Machine

/-! ### Arithmetic (R130 to R139)

ADD, SUB, MULT and DIV run the one rule `arith`, each with its own computation. So the faults of R139, their order, and the
write to A whatever the selector (R135) are proved once, for every instruction that runs `arith`; each instruction adds
what its computation gives. -/

namespace Sys2Proof.Machine

/-! #### The arithmetic unit -/

/-- R136: the sum of the arithmetic unit is the wrapping sum of bytes. -/
theorem aluAdd_eq_add (x y : Byte) : aluAdd x y = x + y := by
  simp [aluAdd, BitVec.ofNat_add]

/-- R136: the difference of the arithmetic unit is the wrapping difference of bytes. -/
theorem aluSub_eq_sub (x y : Byte) : aluSub x y = x - y := by
  apply BitVec.eq_of_toNat_eq
  rw [aluSub, BitVec.toNat_ofInt, BitVec.toNat_sub]
  omega

/-- R131: subtracting what was added gives back the byte, also where the sum wrapped. -/
theorem aluSub_aluAdd_cancel (x n : Byte) : aluSub (aluAdd x n) n = x := by
  rw [aluAdd_eq_add, aluSub_eq_sub, BitVec.add_sub_cancel]

theorem aluAdd_eq_ofNat_mod (x y : Byte) : aluAdd x y = BitVec.ofNat 8 ((x.toNat + y.toNat) % 256) := by
  apply BitVec.eq_of_toNat_eq
  simp [aluAdd]

/-- R132: without a borrow the exact difference, with a borrow 256 more. -/
theorem aluSub_eq_ofNat_borrow (x y : Byte) :
    aluSub x y =
      BitVec.ofNat 8 (if y.toNat ≤ x.toNat then x.toNat - y.toNat else x.toNat + 256 - y.toNat) := by
  apply BitVec.eq_of_toNat_eq
  rw [aluSub_eq_sub, BitVec.toNat_sub, BitVec.toNat_ofNat]
  split <;> omega

theorem aluMult_eq_ofNat_mod (x y : Byte) : aluMult x y = BitVec.ofNat 8 ((x.toNat * y.toNat) % 256) := by
  apply BitVec.eq_of_toNat_eq
  simp [aluMult]

/-- R137: the quotient never overflows a byte. -/
theorem aluDiv_toNat (x y : Byte) : (aluDiv x y).toNat = x.toNat / y.toNat := by
  have hlt : x.toNat / y.toNat < 2 ^ 8 := (Nat.div_le_self _ _).trans_lt x.isLt
  rw [aluDiv, BitVec.toNat_ofNat, Nat.mod_eq_of_lt hlt]

/-- R137: the two bounds that single out the floor quotient. -/
theorem aluDiv_is_floor_quotient (x : Byte) {y : Byte} (hy : y ≠ 0) :
    (aluDiv x y).toNat * y.toNat ≤ x.toNat ∧ x.toNat < ((aluDiv x y).toNat + 1) * y.toNat := by
  have hpos : 0 < y.toNat := Nat.pos_of_ne_zero fun h => hy (BitVec.eq_of_toNat_eq h)
  rw [aluDiv_toNat]
  exact ⟨Nat.div_mul_le_self _ _, (Nat.div_lt_iff_lt_mul hpos).mp (Nat.lt_succ_self _)⟩

/-! #### Legal selectors (R115) -/

theorem selReg_one : selReg 1 = some .a := rfl

theorem selReg_two : selReg 2 = some .b := rfl

theorem selReg_of_legal {sel : Byte} (hsel : sel = 1 ∨ sel = 2) : ∃ r, selReg sel = some r := by
  rcases hsel with rfl | rfl
  · exact ⟨.a, selReg_one⟩
  · exact ⟨.b, selReg_two⟩

/-! #### What the four instructions share -/

/-- The instructions built by `i` run the common rule (R130) with the computation `f`. -/
def RunsArith (i : Byte → Byte → Instr) (f : Byte → Byte → Except Fault Byte) : Prop :=
  ∀ c sel imm s, ruleIn c (i sel imm) s = arith c f sel imm s

theorem add_runsArith : RunsArith .add fun x n => .ok (aluAdd x n) := fun _ _ _ _ => rfl

theorem sub_runsArith : RunsArith .sub fun x n => .ok (aluSub x n) := fun _ _ _ _ => rfl

theorem mult_runsArith : RunsArith .mult fun x n => .ok (aluMult x n) := fun _ _ _ _ => rfl

theorem div_runsArith : RunsArith .div divide := fun _ _ _ _ => rfl

section
variable {i : Byte → Byte → Instr} {f : Byte → Byte → Except Fault Byte} {s : State} {sel imm : Byte}

/-- R130, R135: the result goes to A whichever register was selected, and IC to the opcode after the three bytes. -/
theorem RunsArith.exec_next {r : Reg} {v : Byte} (hi : RunsArith i f) (hic : s.ic + 2 < 65535)
    (hsel : selReg sel = some r) (hv : f (s.reg r) imm = .ok v) :
    exec (i sel imm) s = .next { s with regA := v, ic := s.ic + 3, report := .ok } :=
  exec_eq_next.mpr ((hi ..).trans (arith_eq_ok.mpr ⟨r, v, Nat.lt_of_succ_lt hic, hsel, hic, hv, rfl⟩))

/-- R130: A of the next state is what the computation gave for the selected register's old value. -/
theorem RunsArith.regA_of_exec_next {r : Reg} {t : State} (hi : RunsArith i f) (hsel : selReg sel = some r)
    (h : exec (i sel imm) s = .next t) : f (s.reg r) imm = .ok t.regA := by
  obtain ⟨r', v, -, hsel', -, hv, rfl⟩ := arith_eq_ok.mp ((hi ..).symm.trans (exec_eq_next.mp h))
  obtain rfl : r = r' := Option.some.inj (hsel.symm.trans hsel')
  exact hv

/-- R139: the computation's own fault is the last one tested, after both operand bytes. -/
theorem RunsArith.exec_fault {r : Reg} {e : Fault} (hi : RunsArith i f) (hic : s.ic + 2 < 65535)
    (hsel : selReg sel = some r) (he : f (s.reg r) imm = .error e) : exec (i sel imm) s = .fault e :=
  exec_eq_fault.mpr ((hi ..).trans (arith_eq_error.mpr (.inr (.inr (.inr ⟨r, hic, hsel, he⟩)))))

/-- R139: each shared fault is one case of the common rule. -/
theorem RunsArith.selectorThenByteFaults (hi : RunsArith i f) (s : State) (sel imm : Byte) :
    SelectorThenByteFaults i s sel imm := by
  have fault_of_arith {e : Fault} (h : arith Config.hardware f sel imm s = .error e) :
      exec (i sel imm) s = .fault e :=
    exec_eq_fault.mpr ((hi ..).trans h)
  refine ⟨?selectorAddress, ?selector, ?immediateAddress⟩
  case selectorAddress =>
    exact fun haddr => fault_of_arith (arith_eq_error.mpr (.inl ⟨haddr, rfl⟩))
  case selector =>
    intro haddr h1 h2
    exact fault_of_arith (arith_eq_error.mpr (.inr (.inl ⟨haddr, selReg_eq_none.mpr ⟨h1, h2⟩, rfl⟩)))
  case immediateAddress =>
    intro haddr hout hlegal
    obtain ⟨r, hsel⟩ := selReg_of_legal hlegal
    exact fault_of_arith (arith_eq_error.mpr (.inr (.inr (.inl ⟨r, haddr, hsel, hout, rfl⟩))))

end

/-! #### DIV -/

/-- R134: DIV writes the floor quotient of the selected register by a nonzero immediate. -/
theorem exec_div_writes_floor_quotient {s : State} {sel imm : Byte} {r : Reg} (hic : s.ic + 2 < 65535)
    (himm : imm ≠ 0) (hsel : selReg sel = some r) :
    ∃ q : Byte, exec (.div sel imm) s = .next { s with regA := q, ic := s.ic + 3, report := .ok } ∧
      q.toNat * imm.toNat ≤ (s.reg r).toNat ∧ (s.reg r).toNat < (q.toNat + 1) * imm.toNat :=
  ⟨aluDiv (s.reg r) imm, div_runsArith.exec_next hic hsel (divide_eq_ok.mpr ⟨himm, rfl⟩),
    aluDiv_is_floor_quotient _ himm⟩

/-- R134: a zero divisor faults once the selector is decoded. -/
theorem exec_div_by_zero {s : State} {sel : Byte} (hic : s.ic + 2 < 65535) (hlegal : sel = 1 ∨ sel = 2) :
    exec (.div sel 0) s = .fault .divisionByZero := by
  obtain ⟨r, hsel⟩ := selReg_of_legal hlegal
  exact div_runsArith.exec_fault hic hsel (divide_eq_error.mpr ⟨rfl, rfl⟩)

theorem resultOf_ne_fault (t : State) (f : Fault) : resultOf t ≠ .fault f := by
  unfold resultOf
  split <;> simp

/-- R197: a step that the host is told has faulted left the state as it was. -/
theorem state_eq_of_stepResultIn_fault {c : Config} {s t : State} {f : Fault}
    (h : stepResultIn c s = .ok (.fault f, t)) : t = s := by
  rcases stepResultIn_eq_ok.mp h with ⟨-, hresult⟩ | ⟨_, -, -, hstate⟩
  · exact absurd hresult.symm (resultOf_ne_fault t f)
  · exact hstate

/-! #### The four obligations -/

/-- Settles O12: the common rule with the wrapping sum; the round trip is `aluSub_aluAdd_cancel` on register A. -/
theorem addWritesTheSumToA : Obligations.AddWritesTheSumToA := by
  unfold Obligations.AddWritesTheSumToA
  intro s sel imm
  refine ⟨fun _ => rfl, fun hic => ⟨?fromA, ?fromB⟩, add_runsArith.selectorThenByteFaults s sel imm, ?roundTrip⟩
  case fromA => exact add_runsArith.exec_next hic selReg_one (congrArg _ (aluAdd_eq_ofNat_mod s.regA imm))
  case fromB => exact add_runsArith.exec_next hic selReg_two (congrArg _ (aluAdd_eq_ofNat_mod s.regB imm))
  case roundTrip =>
    intro t u hadd hsub
    have hsum : aluAdd s.regA imm = t.regA := Except.ok.inj (add_runsArith.regA_of_exec_next selReg_one hadd)
    have hdiff : aluSub t.regA imm = u.regA := Except.ok.inj (sub_runsArith.regA_of_exec_next selReg_one hsub)
    rw [← hdiff, ← hsum, aluSub_aluAdd_cancel]

/-- Settles O13: the common rule with the wrapping difference, register minus immediate. -/
theorem subWritesTheDifferenceToA : Obligations.SubWritesTheDifferenceToA := by
  unfold Obligations.SubWritesTheDifferenceToA
  intro s sel imm
  refine ⟨fun _ => rfl, fun hic => ⟨?fromA, ?fromB⟩, sub_runsArith.selectorThenByteFaults s sel imm⟩
  case fromA => exact sub_runsArith.exec_next hic selReg_one (congrArg _ (aluSub_eq_ofNat_borrow s.regA imm))
  case fromB => exact sub_runsArith.exec_next hic selReg_two (congrArg _ (aluSub_eq_ofNat_borrow s.regB imm))

/-- Settles O14: the common rule with the low byte of the product. -/
theorem multWritesTheLowProductToA : Obligations.MultWritesTheLowProductToA := by
  unfold Obligations.MultWritesTheLowProductToA
  intro s sel imm
  refine ⟨fun _ => rfl, fun hic => ⟨?fromA, ?fromB⟩, mult_runsArith.selectorThenByteFaults s sel imm⟩
  case fromA => exact mult_runsArith.exec_next hic selReg_one (congrArg _ (aluMult_eq_ofNat_mod s.regA imm))
  case fromB => exact mult_runsArith.exec_next hic selReg_two (congrArg _ (aluMult_eq_ofNat_mod s.regB imm))

/-- Settles O15: the common rule with the floor quotient, whose own fault, the zero divisor, comes last. -/
theorem divWritesTheFloorQuotientToA : Obligations.DivWritesTheFloorQuotientToA := by
  unfold Obligations.DivWritesTheFloorQuotientToA
  intro s sel imm
  refine ⟨fun _ => rfl, fun hic himm => ⟨?fromA, ?fromB⟩, div_runsArith.selectorThenByteFaults s sel imm, ?zeroDivisor,
    fun _ => state_eq_of_stepResultIn_fault⟩
  case fromA => exact exec_div_writes_floor_quotient hic himm selReg_one
  case fromB => exact exec_div_writes_floor_quotient hic himm selReg_two
  case zeroDivisor =>
    rintro hic rfl hlegal
    exact exec_div_by_zero hic hlegal

end Sys2Proof.Machine

/-! ### Jumps (R140 to R147)

A taken jump goes to the byte of RAM that its pointer byte names. A byte is an address of this hardware's RAM, so only
the address of the pointer byte itself can be out of range (R141). JMP_IF_A and JMP_IF_B run the one rule `jumpIfZero`,
each with its own register, so their outcomes are proved once, for every instruction that runs it. -/

namespace Sys2Proof.Machine

/-! #### The jump target (R144) -/

/-- R141: every byte, taken as an address, exists in this hardware's RAM. -/
theorem byte_lt_hardware_memSize (b : Byte) : b.toNat < Config.hardware.memSize := by
  have hbyte := b.isLt
  rw [hardware_memSize]
  omega

/-- R144: the target is the byte of RAM that the pointer byte names. -/
theorem indirect_of_pointer_in_ram (s : State) {q : Nat} (ptr : Byte) (hq : q + 1 < 65535) :
    indirect Config.hardware s q ptr = .ok (s.ram.read ptr.toNat).toNat :=
  indirect_eq_ok.mpr ⟨hq, byte_lt_hardware_memSize _, rfl, byte_lt_hardware_memSize _⟩

/-- R13: a pointer byte outside RAM is not read, so there it plays no part. -/
theorem indirect_of_pointer_outside_ram {c : Config} (s : State) {q : Nat} (ptr : Byte) (hq : c.memSize ≤ q + 1) :
    indirect c s q ptr = .error (.addressOutOfRange (q + 1)) :=
  indirect_eq_error.mpr (.inl ⟨hq, rfl⟩)

/-! #### JMP -/

/-- Settles O16: JMP is the indirection at the byte after the opcode; the ignored byte there is not read. -/
theorem jmpGoesThroughMemory : Obligations.JmpGoesThroughMemory := by
  unfold Obligations.JmpGoesThroughMemory
  intro s ign ptr
  refine ⟨fun _ => rfl, ?completes, ?pointerAddress⟩
  case completes =>
    exact fun hptr => exec_next_iff.mpr ⟨_, indirect_of_pointer_in_ram s ptr hptr, rfl⟩
  case pointerAddress =>
    exact fun hptr =>
      exec_eq_fault.mpr ((jmpIn_eq_error (ign := ign)).mpr (indirect_of_pointer_outside_ram s ptr hptr))

/-! #### The test for zero (R27) -/

theorem State.isZero_eq_true {s : State} {r : Reg} : s.isZero r = true ↔ s.reg r = 0 := by
  simp [State.isZero, BitVec.toNat_eq]

theorem State.isZero_eq_false {s : State} {r : Reg} : s.isZero r = false ↔ s.reg r ≠ 0 := by
  rw [← Bool.not_eq_true, State.isZero_eq_true]

/-! #### What the two conditional jumps share -/

/-- The instructions built by `i` run the rule of the conditional jumps (R142, R143) on the register `own`. -/
def RunsJumpIfZero (i : Byte → Byte → Byte → Instr) (own : Reg) : Prop :=
  ∀ c sel ign ptr s, ruleIn c (i sel ign ptr) s = jumpIfZero c own sel ptr s

theorem jmpIfA_runsJumpIfZero : RunsJumpIfZero .jmpIfA .a := fun _ _ _ _ _ => rfl

theorem jmpIfB_runsJumpIfZero : RunsJumpIfZero .jmpIfB .b := fun _ _ _ _ _ => rfl

section
variable {i : Byte → Byte → Byte → Instr} {own : Reg} {s : State} {sel ign ptr : Byte}

theorem RunsJumpIfZero.exec_next_iff {t : State} (hi : RunsJumpIfZero i own) :
    exec (i sel ign ptr) s = .next t ↔ jumpIfZero Config.hardware own sel ptr s = .ok t := by
  rw [exec_eq_next, hi]

theorem RunsJumpIfZero.exec_fault_iff {f : Fault} (hi : RunsJumpIfZero i own) :
    exec (i sel ign ptr) s = .fault f ↔ jumpIfZero Config.hardware own sel ptr s = .error f := by
  rw [exec_eq_fault, hi]

/-- R142, R147: a jump that is not taken reads nothing after its selector, so the selector's address is all it needs. -/
theorem RunsJumpIfZero.exec_not_taken (hi : RunsJumpIfZero i own) (hsel : selReg sel = some own)
    (haddr : s.ic + 1 < 65535) (hreg : s.reg own ≠ 0) :
    exec (i sel ign ptr) s = .next { s with ic := s.ic + 3, report := .ok } :=
  hi.exec_next_iff.mpr (jumpIfZero_eq_ok.mpr ⟨haddr, hsel, .inr ⟨State.isZero_eq_false.mpr hreg, rfl⟩⟩)

/-- R142: a jump that is taken goes through memory as JMP does, with its pointer byte one further on. -/
theorem RunsJumpIfZero.exec_taken (hi : RunsJumpIfZero i own) (hsel : selReg sel = some own)
    (hptr : s.ic + 3 < 65535) (hreg : s.reg own = 0) :
    exec (i sel ign ptr) s = .next { s with ic := (s.ram.read ptr.toNat).toNat, report := .ok } := by
  have haddr : s.ic + 1 < 65535 := by omega
  have htarget := indirect_of_pointer_in_ram s ptr hptr
  exact hi.exec_next_iff.mpr
    (jumpIfZero_eq_ok.mpr ⟨haddr, hsel, .inl ⟨State.isZero_eq_true.mpr hreg, _, htarget, rfl⟩⟩)

/-- R142: the first check is the selector's address. -/
theorem RunsJumpIfZero.exec_selector_outside_ram (hi : RunsJumpIfZero i own) (haddr : 65535 ≤ s.ic + 1) :
    exec (i sel ign ptr) s = .fault (.addressOutOfRange (s.ic + 1)) :=
  hi.exec_fault_iff.mpr (jumpIfZero_eq_error.mpr (.inl ⟨haddr, rfl⟩))

/-- R142: the second check is that the selector names a register. -/
theorem RunsJumpIfZero.exec_invalid_selector (hi : RunsJumpIfZero i own) (haddr : s.ic + 1 < 65535)
    (h1 : sel ≠ 1) (h2 : sel ≠ 2) :
    exec (i sel ign ptr) s = .fault (.invalidRegisterSelector (s.ic + 1) sel) :=
  hi.exec_fault_iff.mpr (jumpIfZero_eq_error.mpr (.inr (.inl ⟨haddr, selReg_eq_none.mpr ⟨h1, h2⟩, rfl⟩)))

/-- R142: the third check is that the selector names the instruction's own register, whatever that register holds. -/
theorem RunsJumpIfZero.exec_selector_mismatch {r : Reg} (hi : RunsJumpIfZero i own) (hsel : selReg sel = some r)
    (hne : r ≠ own) (haddr : s.ic + 1 < 65535) :
    exec (i sel ign ptr) s = .fault (.registerSelectorMismatch (s.ic + 1) r) :=
  hi.exec_fault_iff.mpr (jumpIfZero_eq_error.mpr (.inr (.inr (.inl ⟨r, haddr, hsel, hne, rfl⟩))))

/-- R142: the last check, made only when the jump is taken, is the pointer byte's address. -/
theorem RunsJumpIfZero.exec_pointer_outside_ram (hi : RunsJumpIfZero i own) (hsel : selReg sel = some own)
    (haddr : s.ic + 1 < 65535) (hptr : 65535 ≤ s.ic + 3) (hreg : s.reg own = 0) :
    exec (i sel ign ptr) s = .fault (.addressOutOfRange (s.ic + 3)) := by
  have htarget := indirect_of_pointer_outside_ram (c := Config.hardware) s ptr hptr
  exact hi.exec_fault_iff.mpr
    (jumpIfZero_eq_error.mpr (.inr (.inr (.inr ⟨haddr, hsel, State.isZero_eq_true.mpr hreg, htarget⟩))))

end

/-! #### The two obligations -/

/-- Settles O17: the rule of the conditional jumps on register A, whose selector is 1. -/
theorem jmpIfATestsAForZero : Obligations.JmpIfATestsAForZero := by
  unfold Obligations.JmpIfATestsAForZero
  intro s sel ign ptr
  have hi := jmpIfA_runsJumpIfZero
  refine ⟨fun _ => rfl, ?notTaken, ?taken, ?selectorAddress, ?selector, ?mismatch, ?pointerAddress⟩
  case notTaken => exact hi.exec_not_taken selReg_one
  case taken => exact hi.exec_taken selReg_one
  case selectorAddress => exact hi.exec_selector_outside_ram
  case selector => exact hi.exec_invalid_selector
  case mismatch => exact hi.exec_selector_mismatch selReg_two (by decide)
  case pointerAddress => exact hi.exec_pointer_outside_ram selReg_one

/-- Settles O18: the rule of the conditional jumps on register B, whose selector is 2. -/
theorem jmpIfBTestsBForZero : Obligations.JmpIfBTestsBForZero := by
  unfold Obligations.JmpIfBTestsBForZero
  intro s sel ign ptr
  have hi := jmpIfB_runsJumpIfZero
  refine ⟨fun _ => rfl, ?notTaken, ?taken, ?selectorAddress, ?selector, ?mismatch, ?pointerAddress⟩
  case notTaken => exact hi.exec_not_taken selReg_two
  case taken => exact hi.exec_taken selReg_two
  case selectorAddress => exact hi.exec_selector_outside_ram
  case selector => exact hi.exec_invalid_selector
  case mismatch => exact hi.exec_selector_mismatch selReg_one (by decide)
  case pointerAddress => exact hi.exec_pointer_outside_ram selReg_two

end Sys2Proof.Machine

/-! ### STACK (R150 to R153)

PUSH is stated at every configuration, for its overflow depends on STACK_DEPTH; this hardware's PUSH is the case of the
unbounded stack. POP reads no memory after its opcode byte, so it completes at the last address of RAM too, and the fetch
after it is the one that is out of range. -/

namespace Sys2Proof.Machine

/-! #### Room on STACK (R151) -/

theorem stackFull_eq_true {c : Config} {s : State} :
    stackFull c s = true ↔ c.stackDepth = some s.stack.length := by
  unfold stackFull
  cases c.stackDepth with
  | none => simp
  | some depth => simp [eq_comm]

theorem stackFull_eq_false {c : Config} {s : State} :
    stackFull c s = false ↔ c.stackDepth ≠ some s.stack.length := by
  rw [← Bool.not_eq_true, ne_eq, stackFull_eq_true]

/-! #### PUSH -/

theorem exec_eq_execIn (i : Instr) (s : State) : exec i s = execIn Config.hardware i s := exec_eq_deliver i s

section
variable {c : Config} {s : State} (ign imm : Byte)

/-- R150: the first check is the immediate's address, also when STACK is full. -/
theorem execIn_push_immediate_outside_ram (haddr : c.memSize ≤ s.ic + 2) :
    execIn c (.push ign imm) s = .fault (.addressOutOfRange (s.ic + 2)) :=
  execIn_eq_fault.mpr ((pushIn_eq_error (ign := ign) (imm := imm)).mpr (.inl ⟨haddr, rfl⟩))

/-- R151: the second check is that STACK has room. -/
theorem execIn_push_full_stack (haddr : s.ic + 2 < c.memSize) (hfull : c.stackDepth = some s.stack.length) :
    execIn c (.push ign imm) s = .fault .stackOverflow :=
  execIn_eq_fault.mpr
    ((pushIn_eq_error (ign := ign) (imm := imm)).mpr (.inr ⟨haddr, stackFull_eq_true.mpr hfull, rfl⟩))

/-- R150: past both checks the immediate becomes the top. -/
theorem execIn_push_next (haddr : s.ic + 2 < c.memSize) (hroom : c.stackDepth ≠ some s.stack.length) :
    execIn c (.push ign imm) s = .next { s with stack := s.stack ++ [imm], ic := s.ic + 3, report := .ok } :=
  execIn_eq_next.mpr (ruleIn_eq_ok.mpr ⟨haddr, stackFull_eq_false.mpr hroom, rfl⟩)

end

/-- Settles O22: the rule of PUSH at every configuration, and then at this hardware's, whose STACK is never full. -/
theorem pushAppendsTheImmediate : Obligations.PushAppendsTheImmediate := by
  unfold Obligations.PushAppendsTheImmediate
  intro c s ign imm
  refine ⟨fun _ => rfl, execIn_push_immediate_outside_ram ign imm, execIn_push_full_stack ign imm,
    execIn_push_next ign imm, ?hardwareCompletes, ?hardwareFaults⟩
  case hardwareCompletes =>
    intro haddr
    have hroom : Config.hardware.stackDepth ≠ some s.stack.length := by simp
    exact (exec_eq_execIn _ s).trans (execIn_push_next ign imm haddr hroom)
  case hardwareFaults =>
    exact fun haddr => (exec_eq_execIn _ s).trans (execIn_push_immediate_outside_ram ign imm haddr)

/-! #### POP -/

/-- R152: what a POP that completes leaves, with STACK written as the popped byte on top of the rest. -/
theorem completes_pop {c : Config} {s : State} {below : List Byte} {v : Byte} (ign : Byte)
    (hstack : s.stack = below ++ [v]) :
    Completes c s { s with stack := below, ic := s.ic + 2, report := .ok } (.pop ign) := by
  have hnonempty : s.stack ≠ [] := by simp [hstack]
  have hrest : s.stack.dropLast = below := by rw [hstack, List.dropLast_concat]
  subst hrest
  exact ⟨hnonempty, rfl⟩

/-- R152: the one fault of POP. -/
theorem exec_pop_empty_stack {s : State} (ign : Byte) (hempty : s.stack = []) :
    exec (.pop ign) s = .fault .stackUnderflow :=
  exec_eq_fault.mpr ((popIn_eq_error (ign := ign)).mpr ⟨hempty, rfl⟩)

/-- Format X (R83): the byte after the opcode is POP's ignored byte. -/
theorem decode_fetchWindow_of_pop_opcode {s : State} (hop : s.ram.read s.ic = 0x09) :
    decode (fetchWindow s) = .ok (.pop (s.ram.read (s.ic + 1))) := by
  rw [fetchWindow_eq, hop]
  rfl

/-- R152: a step at a POP byte needs no address but that of the opcode. -/
theorem step_of_pop_opcode {s : State} {below : List Byte} {v : Byte} (hic : s.ic < 65535)
    (hop : s.ram.read s.ic = 0x09) (hstack : s.stack = below ++ [v]) :
    step s = .next { s with stack := below, ic := s.ic + 2, report := .ok } :=
  step_next_iff.mpr ⟨_, hic, decode_fetchWindow_of_pop_opcode hop, completes_pop _ hstack⟩

/-- R111: outside RAM nothing is fetched. -/
theorem stepIn_of_ic_outside_ram {c : Config} {s : State} (hic : c.memSize ≤ s.ic) :
    stepIn c s = .fault (.addressOutOfRange s.ic) :=
  stepIn_eq_fault.mpr (.inl (fetchInstr_eq_error.mpr (.inl ⟨hic, rfl⟩)))

/-- Settles O23: POP's rule needs only a nonempty STACK, so a POP at the last address completes, with IC at 65536, from
where the next step cannot fetch. -/
theorem popDiscardsTheTop : Obligations.PopDiscardsTheTop := by
  unfold Obligations.PopDiscardsTheTop
  intro s ign v below
  refine ⟨fun _ => rfl, fun hstack => exec_next_iff.mpr (completes_pop ign hstack), exec_pop_empty_stack ign,
    ?lastAddress⟩
  case lastAddress =>
    intro hstack hic hop
    have hinside : s.ic < 65535 := by omega
    have hstep := step_of_pop_opcode hinside (by rw [hic, hop]) hstack
    rw [hic] at hstep
    have houtside : Config.hardware.memSize ≤ 65536 := by simp
    exact ⟨_, hstep, rfl, (step_eq_stepIn _).trans (stepIn_of_ic_outside_ram houtside)⟩

end Sys2Proof.Machine

/-! ### MOV, PRINT and HALT (R160 to R166)

MOV decodes two selectors and PRINT one, so their faults are those of R115 at the addresses of the selector bytes, in
order. With LEGACY_PLACEHOLDERS both stop before the first selector; that check is the one source of Unimplemented, so
without the parameter no rule raises it. -/

namespace Sys2Proof.Machine

/-! #### MOV -/

section
variable {s : State} {dsel ssel : Byte}

/-- R160: the destination gets what the source held, and nothing else but IC moves. -/
theorem exec_mov_next {d r : Reg} (hic : s.ic + 2 < 65535) (hd : selReg dsel = some d) (hr : selReg ssel = some r) :
    exec (.mov dsel ssel) s = .next (((s.setReg d (s.reg r)).setIc (s.ic + 3)).setReport .ok) :=
  exec_next_iff.mpr ⟨hardware_legacyPlaceholders, hic, d, r, hd, hr, rfl⟩

/-- On this hardware MOV is not the placeholder of R166, so its faults are those of the two selectors. -/
theorem exec_mov_fault_iff {f : Fault} :
    exec (.mov dsel ssel) s = .fault f ↔
      (65535 ≤ s.ic + 1 ∧ f = .addressOutOfRange (s.ic + 1)) ∨
      (s.ic + 1 < 65535 ∧ selReg dsel = none ∧ f = .invalidRegisterSelector (s.ic + 1) dsel) ∨
      (∃ d, s.ic + 1 < 65535 ∧ selReg dsel = some d ∧
        ((65535 ≤ s.ic + 2 ∧ f = .addressOutOfRange (s.ic + 2)) ∨
         (s.ic + 2 < 65535 ∧ selReg ssel = none ∧ f = .invalidRegisterSelector (s.ic + 2) ssel))) := by
  have hmov : exec (.mov dsel ssel) s = .fault f ↔ movIn Config.hardware dsel ssel s = .error f := exec_eq_fault
  simp [hmov, movIn_eq_error]

end

/-- R22, R160: register B is written by MOV alone. -/
theorem Completes.regB_eq_or_mov {c : Config} {s t : State} {i : Instr} (h : Completes c s t i) :
    t.regB = s.regB ∨ ∃ dsel ssel, i = .mov dsel ssel := by
  cases i with
  | mov dsel ssel => exact .inr ⟨dsel, ssel, rfl⟩
  | halt =>
    obtain rfl := h
    exact .inl rfl
  | add | sub | mult =>
    obtain ⟨-, _, -, rfl⟩ := h
    exact .inl rfl
  | div =>
    obtain ⟨-, -, _, -, rfl⟩ := h
    exact .inl rfl
  | jmp =>
    obtain ⟨_, -, rfl⟩ := h
    exact .inl rfl
  | jmpIfA | jmpIfB =>
    obtain ⟨-, -, ⟨-, _, -, rfl⟩ | ⟨-, rfl⟩⟩ := h
    · exact .inl rfl
    · exact .inl rfl
  | push =>
    obtain ⟨-, -, rfl⟩ := h
    exact .inl rfl
  | pop =>
    obtain ⟨-, rfl⟩ := h
    exact .inl rfl
  | print =>
    obtain ⟨-, -, _, -, rfl⟩ := h
    exact .inl rfl

/-- Settles O25: the four forms are the one rule at the registers that the selector bytes name; the faults are its error
cases in order; that no other instruction writes B is the case split of `Completes.regB_eq_or_mov`. -/
theorem movCopiesARegister : Obligations.MovCopiesARegister := by
  unfold Obligations.MovCopiesARegister
  intro s dsel ssel
  refine ⟨fun _ => rfl, fun hic => ⟨?aFromA, ?aFromB, ?bFromA, ?bFromB⟩, ?destinationAddress, ?destination,
    ?sourceAddress, ?source, ?onlyMovWritesB⟩
  case aFromA => exact exec_mov_next hic selReg_one selReg_one
  case aFromB => exact exec_mov_next hic selReg_one selReg_two
  case bFromA => exact exec_mov_next hic selReg_two selReg_one
  case bFromB => exact exec_mov_next hic selReg_two selReg_two
  case destinationAddress => exact fun haddr => exec_mov_fault_iff.mpr (.inl ⟨haddr, rfl⟩)
  case destination =>
    exact fun haddr h1 h2 => exec_mov_fault_iff.mpr (.inr (.inl ⟨haddr, selReg_eq_none.mpr ⟨h1, h2⟩, rfl⟩))
  case sourceAddress =>
    intro haddr hout hlegal
    obtain ⟨d, hd⟩ := selReg_of_legal hlegal
    exact exec_mov_fault_iff.mpr (.inr (.inr ⟨d, haddr, hd, .inl ⟨hout, rfl⟩⟩))
  case source =>
    intro haddr hlegal h1 h2
    obtain ⟨d, hd⟩ := selReg_of_legal hlegal
    exact exec_mov_fault_iff.mpr
      (.inr (.inr ⟨d, Nat.lt_of_succ_lt haddr, hd, .inr ⟨haddr, selReg_eq_none.mpr ⟨h1, h2⟩, rfl⟩⟩))
  case onlyMovWritesB =>
    exact fun i t h hB => (exec_next_iff.mp h).regB_eq_or_mov.resolve_left hB

/-! #### PRINT -/

section
variable {s : State} {sel : Byte}

/-- R162: OUT gains the event of the selected register, and nothing else but IC moves. -/
theorem exec_print_next {r : Reg} (hic : s.ic + 1 < 65535) (hsel : selReg sel = some r) :
    exec (.print sel) s = .next (((s.emit r).setIc (s.ic + 2)).setReport .ok) :=
  exec_next_iff.mpr ⟨hardware_legacyPlaceholders, hic, r, hsel, rfl⟩

/-- On this hardware PRINT is not the placeholder of R166, so its faults are those of its selector. -/
theorem exec_print_fault_iff {f : Fault} :
    exec (.print sel) s = .fault f ↔
      (65535 ≤ s.ic + 1 ∧ f = .addressOutOfRange (s.ic + 1)) ∨
      (s.ic + 1 < 65535 ∧ selReg sel = none ∧ f = .invalidRegisterSelector (s.ic + 1) sel) := by
  have hprint : exec (.print sel) s = .fault f ↔ printIn Config.hardware sel s = .error f := exec_eq_fault
  simp [hprint, printIn_eq_error]

end

/-- Settles O26: the two forms are the one rule at the register that the selector byte names; the faults are its error
cases in order. -/
theorem printEmitsTheRegister : Obligations.PrintEmitsTheRegister := by
  unfold Obligations.PrintEmitsTheRegister
  intro s sel
  refine ⟨fun _ => rfl, fun hic => ⟨?printA, ?printB⟩, ?selectorAddress, ?selector⟩
  case printA => exact exec_print_next hic selReg_one
  case printB => exact exec_print_next hic selReg_two
  case selectorAddress => exact fun haddr => exec_print_fault_iff.mpr (.inl ⟨haddr, rfl⟩)
  case selector =>
    exact fun haddr h1 h2 => exec_print_fault_iff.mpr (.inr ⟨haddr, selReg_eq_none.mpr ⟨h1, h2⟩, rfl⟩)

/-! #### HALT -/

/-- R110: a step that completes hands the host its result and its next state. -/
theorem stepResultIn_of_next {c : Config} {s t : State} (h : stepIn c s = .next t) :
    stepResultIn c s = .ok (resultOf t, t) :=
  stepResultIn_eq_ok.mpr (.inl ⟨h, rfl⟩)

/-- Settles O27: HALT writes the result alone, so the step after it finds the same HALT byte at the same IC. -/
theorem haltWritesNothingAndReportsHalted : Obligations.HaltWritesNothingAndReportsHalted := by
  unfold Obligations.HaltWritesNothingAndReportsHalted
  intro s
  refine ⟨fun _ => rfl, exec_next_iff.mpr rfl, fun hic hop => ⟨?halts, ?haltsAgain⟩, ?blankIsHalt⟩
  case halts => exact stepResultIn_of_next ((step_eq_stepIn s).symm.trans (step_of_halt_opcode hic hop))
  case haltsAgain => exact step_of_halt_opcode (s := { s with report := .halted }) hic hop
  case blankIsHalt =>
    intro a rest _
    rw [State.reset_ram_read]
    rfl

/-! #### LEGACY_PLACEHOLDERS (R166) -/

section
variable {c : Config} {s : State} {o : Nat} {opc : Byte}

theorem indirect_ne_unimplemented (q : Nat) (ptr : Byte) : indirect c s q ptr ≠ .error (.unimplemented o opc) := by
  simp [indirect_eq_error]

theorem RunsJumpIfZero.ruleIn_ne_unimplemented {i : Byte → Byte → Byte → Instr} {own : Reg}
    (hi : RunsJumpIfZero i own) (sel ign ptr : Byte) : ruleIn c (i sel ign ptr) s ≠ .error (.unimplemented o opc) := by
  simp [hi c sel ign ptr s, jumpIfZero_eq_error, indirect_ne_unimplemented]

/-- The common rule of the arithmetic instructions raises Unimplemented only if its computation does. -/
theorem RunsArith.ruleIn_ne_unimplemented {i : Byte → Byte → Instr} {f : Byte → Byte → Except Fault Byte}
    (hi : RunsArith i f) (hf : ∀ x n, f x n ≠ .error (.unimplemented o opc)) (sel imm : Byte) :
    ruleIn c (i sel imm) s ≠ .error (.unimplemented o opc) := by
  simp [hi c sel imm s, arith_eq_error, hf]

/-- R166, R192: MOV and PRINT test the parameter first, and no other rule names Unimplemented. -/
theorem ruleIn_ne_unimplemented (hc : c.legacyPlaceholders = false) (i : Instr) :
    ruleIn c i s ≠ .error (.unimplemented o opc) := by
  cases i with
  | halt => exact haltIn_ne_error s _
  | add sel imm => exact add_runsArith.ruleIn_ne_unimplemented (by simp) sel imm
  | sub sel imm => exact sub_runsArith.ruleIn_ne_unimplemented (by simp) sel imm
  | mult sel imm => exact mult_runsArith.ruleIn_ne_unimplemented (by simp) sel imm
  | div sel imm => exact div_runsArith.ruleIn_ne_unimplemented (by simp [divide_eq_error]) sel imm
  | jmp ign ptr => simp [ruleIn, jmpIn_eq_error, indirect_ne_unimplemented]
  | jmpIfA sel ign ptr => exact jmpIfA_runsJumpIfZero.ruleIn_ne_unimplemented sel ign ptr
  | jmpIfB sel ign ptr => exact jmpIfB_runsJumpIfZero.ruleIn_ne_unimplemented sel ign ptr
  | push ign imm => simp [ruleIn, pushIn_eq_error]
  | pop ign => simp [ruleIn, popIn_eq_error]
  | mov dsel ssel => simp [ruleIn, movIn_eq_error, hc]
  | print sel => simp [ruleIn, printIn_eq_error, hc]

end

/-- Settles O28: the placeholder's check comes before every operand byte, and it is the one source of Unimplemented. -/
theorem legacyPlaceholdersRaiseUnimplemented : Obligations.LegacyPlaceholdersRaiseUnimplemented := by
  unfold Obligations.LegacyPlaceholdersRaiseUnimplemented
  intro c s x y
  refine ⟨fun hlegacy => ⟨?mov, ?print⟩, ?neverOtherwise⟩
  case mov => exact execIn_eq_fault.mpr (movIn_eq_error.mpr (.inl ⟨hlegacy, rfl⟩))
  case print => exact execIn_eq_fault.mpr (printIn_eq_error.mpr (.inl ⟨hlegacy, rfl⟩))
  case neverOtherwise => exact fun hmodern i o opc => execIn_eq_fault.not.mpr (ruleIn_ne_unimplemented hmodern i)

end Sys2Proof.Machine

/-! ### The host operations (R170 to R178)

LoadRAM and LoadROM replace one memory by the array of the image's bytes. That LoadROM is invisible to every later Step
rests on one fact: each instruction's rule carries the ROM of its state along and asks nothing of it (R32). -/

namespace Sys2Proof.Machine

/-! #### What the loaded memory holds -/

/-- R172, R173: a memory loaded from address 0 on reads the image's own bytes. -/
theorem Memory.read_ofBytes_zero {image : List Byte} {a : Nat} (h : a < image.length) :
    (Memory.ofBytes 0 image).read a = image[a] := by
  simpa using Memory.read_ofBytes 0 image a h

/-- An operation that is refused has no reply and no next state. -/
theorem hostOp_ne_ok_of_refused {op : HostOp} {s : State} {e : Refusal} (h : hostOp op s = .error e) (r : HostReply)
    (t : State) : hostOp op s ≠ .ok (r, t) := by
  simp [h]

/-- Settles O49: RAM becomes the array of the image's bytes, and an image of another length is refused. -/
theorem loadRamReplacesAllOfRam : Obligations.LoadRamReplacesAllOfRam := by
  unfold Obligations.LoadRamReplacesAllOfRam
  intro s image
  refine ⟨fun hlen => ⟨_, hostOpIn_loadRam_of_length s hlen, rfl, ?bytes⟩, ?otherLength⟩
  case bytes => exact fun _ => Memory.read_ofBytes_zero
  case otherLength => exact fun hlen r t => hostOp_ne_ok_of_refused (hostOpIn_loadRam_of_wrong_length s hlen) r t

/-! #### ROM plays no part in a step (R32) -/

/-- The state with another ROM. -/
def State.withRom (s : State) (m : Memory) : State := { s with rom := m }

section
variable (c : Config) (s : State) (m : Memory)

theorem State.withRom_reg (r : Reg) : (s.withRom m).reg r = s.reg r := by cases r <;> rfl

theorem State.withRom_setReg (r : Reg) (v : Byte) : (s.withRom m).setReg r v = (s.setReg r v).withRom m := by
  cases r <;> rfl

theorem State.withRom_isZero (r : Reg) : (s.withRom m).isZero r = s.isZero r :=
  congrArg (·.toNat == 0) (s.withRom_reg m r)

/-! With another ROM a rule reads the same operands, registers and RAM, so it comes to the same `commit` or the same
fault: once `map_bind` has moved the change of ROM past the reads, the two sides agree by definition. -/

theorem RunsArith.ruleIn_withRom {i : Byte → Byte → Instr} {f : Byte → Byte → Except Fault Byte}
    (hi : RunsArith i f) (sel imm : Byte) :
    ruleIn c (i sel imm) (s.withRom m) = (·.withRom m) <$> ruleIn c (i sel imm) s := by
  rw [hi, hi]
  simp only [arith, map_bind, State.withRom_reg, State.withRom_setReg]
  rfl

theorem RunsJumpIfZero.ruleIn_withRom {i : Byte → Byte → Byte → Instr} {own : Reg} (hi : RunsJumpIfZero i own)
    (sel ign ptr : Byte) :
    ruleIn c (i sel ign ptr) (s.withRom m) = (·.withRom m) <$> ruleIn c (i sel ign ptr) s := by
  rw [hi, hi]
  simp only [jumpIfZero, map_bind, State.withRom_isZero]
  cases s.isZero own with
  | true =>
    simp only [if_true, map_bind]
    rfl
  | false => rfl

/-- R32: with another ROM, the rule of every instruction raises the same fault or leaves the same state but for ROM. -/
theorem ruleIn_withRom (i : Instr) : ruleIn c i (s.withRom m) = (·.withRom m) <$> ruleIn c i s := by
  cases i with
  | halt => rfl
  | add sel imm => exact add_runsArith.ruleIn_withRom c s m sel imm
  | sub sel imm => exact sub_runsArith.ruleIn_withRom c s m sel imm
  | mult sel imm => exact mult_runsArith.ruleIn_withRom c s m sel imm
  | div sel imm => exact div_runsArith.ruleIn_withRom c s m sel imm
  | jmp ign ptr =>
    simp only [ruleIn, jmpIn, map_bind]
    rfl
  | jmpIfA sel ign ptr => exact jmpIfA_runsJumpIfZero.ruleIn_withRom c s m sel ign ptr
  | jmpIfB sel ign ptr => exact jmpIfB_runsJumpIfZero.ruleIn_withRom c s m sel ign ptr
  | push ign imm =>
    simp only [ruleIn, pushIn, map_bind]
    rfl
  | pop ign =>
    simp only [ruleIn, popIn, map_bind]
    rfl
  | mov dsel ssel =>
    simp only [ruleIn, movIn, map_bind, State.withRom_reg, State.withRom_setReg]
    rfl
  | print sel =>
    simp only [ruleIn, printIn, map_bind, State.emit, State.withRom_reg]
    rfl

end

section
variable {c : Config} {s : State} (m : Memory)

theorem stepIn_withRom_of_next {t : State} (h : stepIn c s = .next t) :
    stepIn c (s.withRom m) = .next (t.withRom m) := by
  obtain ⟨i, hic, hdecode, hrule⟩ := stepIn_eq_next.mp h
  exact stepIn_eq_next.mpr ⟨i, hic, hdecode, by rw [ruleIn_withRom, hrule]; rfl⟩

theorem stepIn_withRom_of_fault {f : Fault} (h : stepIn c s = .fault f) : stepIn c (s.withRom m) = .fault f := by
  rcases stepIn_eq_fault.mp h with hfetch | ⟨i, hic, hdecode, hrule⟩
  · exact stepIn_eq_fault.mpr (.inl hfetch)
  · exact stepIn_eq_fault.mpr (.inr ⟨i, hic, hdecode, by rw [ruleIn_withRom, hrule]; rfl⟩)

theorem step_withRom_of_next {t : State} (h : step s = .next t) : step (s.withRom m) = .next (t.withRom m) := by
  rw [step_eq_stepIn] at h ⊢
  exact stepIn_withRom_of_next m h

theorem step_withRom_of_fault {f : Fault} (h : step s = .fault f) : step (s.withRom m) = .fault f := by
  rw [step_eq_stepIn] at h ⊢
  exact stepIn_withRom_of_fault m h

end

/-- R116: a step completes or faults. -/
theorem stepIn_next_or_fault (c : Config) (s : State) :
    (∃ t, stepIn c s = .next t) ∨ ∃ f, stepIn c s = .fault f := by
  cases h : stepIn c s with
  | next t => exact .inl ⟨t, rfl⟩
  | fault f => exact .inr ⟨f, rfl⟩
  | refused r =>
    unfold stepIn at h
    split at h
    · exact absurd h (deliver_ne_refused _ r)
    · cases h

/-- A host Step has one reply whatever ROM holds: result, fault and event alike. -/
theorem hostOpIn_step_withRom (c : Config) (s : State) (m : Memory) :
    ∃ r t, hostOpIn c .step s = .ok (r, t) ∧ hostOpIn c .step (s.withRom m) = .ok (r, t.withRom m) := by
  rcases stepIn_next_or_fault c s with ⟨t, hnext⟩ | ⟨f, hfault⟩
  · exact ⟨_, t, hostOpIn_step_of_next hnext, hostOpIn_step_of_next (stepIn_withRom_of_next m hnext)⟩
  · exact ⟨_, s, hostOpIn_step_of_fault hfault, hostOpIn_step_of_fault (stepIn_withRom_of_fault m hfault)⟩

/-- R173: any number of host Steps, by induction on how many. -/
theorem hostRunIn_steps_withRom (c : Config) (m : Memory) (k : Nat) : ∀ s : State,
    ∃ rs t, hostRunIn c (List.replicate k .step) s = .ok (rs, t) ∧
      hostRunIn c (List.replicate k .step) (s.withRom m) = .ok (rs, t.withRom m) := by
  induction k with
  | zero => exact fun s => ⟨[], s, rfl, rfl⟩
  | succ k ih =>
    intro s
    obtain ⟨r, t, hstep, hstepRom⟩ := hostOpIn_step_withRom c s m
    obtain ⟨rs, u, hrun, hrunRom⟩ := ih t
    exact ⟨r :: rs, u, hostRunIn_cons hstep hrun, hostRunIn_cons hstepRom hrunRom⟩

/-- Settles O50: the loaded state is the old one with another ROM, which no later Step can tell from it. -/
theorem loadRomReplacesAllOfRom : Obligations.LoadRomReplacesAllOfRom := by
  unfold Obligations.LoadRomReplacesAllOfRom
  intro s image
  refine ⟨fun hlen => ⟨s.withRom (Memory.ofBytes 0 image), hostOpIn_loadRom_of_length s hlen, rfl, ?bytes, ?next,
    ?fault, ?steps⟩, ?otherLength⟩
  case bytes => exact fun _ => Memory.read_ofBytes_zero
  case next => exact fun _ => step_withRom_of_next _
  case fault => exact fun _ => step_withRom_of_fault _
  case steps => exact fun k => hostRunIn_steps_withRom Config.hardware _ k s
  case otherLength => exact fun hlen r t => hostOp_ne_ok_of_refused (hostOpIn_loadRom_of_wrong_length s hlen) r t

/-! #### Reset, CopyRomToRam and Observe -/

/-- Settles O51: Reset answers `State.reset`, whose memories read blank everywhere; the other two clauses are the
operations' definitions. -/
theorem resetCopyAndObserve : Obligations.ResetCopyAndObserve := by
  unfold Obligations.ResetCopyAndObserve
  intro s
  refine ⟨⟨State.reset, rfl, rfl, rfl, rfl, rfl, rfl, ?blank⟩, ⟨s.copyRomToRam, rfl, rfl, ?copied⟩, ?observed⟩
  case blank => exact fun a _ => ⟨State.reset_ram_read a, State.reset_rom_read a⟩
  case copied => exact fun _ _ => rfl
  case observed => rfl

end Sys2Proof.Machine

/-! ### The faults of the instructions (R185 to R195)

Each fault has one cause, whichever instruction raises it. `FaultCause` says it fault by fault, and one case split over
the twelve rules shows that no rule faults without its cause. So each equivalence below is that lemma in one direction
and, in the other, the instruction run where the cause holds. -/

namespace Sys2Proof.Machine

/-! #### The cause of a fault -/

/-- The byte `b` is the one that the rule of `i` decodes first as a selector (formats SI, SXP, SS and S of R83). -/
def FirstSelector (i : Instr) (b : Byte) : Prop :=
  (∃ imm, i = .add b imm ∨ i = .sub b imm ∨ i = .mult b imm ∨ i = .div b imm) ∨
    (∃ ign ptr, i = .jmpIfA b ign ptr ∨ i = .jmpIfB b ign ptr) ∨ (∃ ssel, i = .mov b ssel) ∨ i = .print b

/-- What holds of the instruction `i` and the state `s` when the rule of `i` raises the fault (R187 to R194). -/
def FaultCause (c : Config) (s : State) (i : Instr) : Fault → Prop
  | .invalidRegisterSelector addr b => b ≠ 1 ∧ b ≠ 2 ∧ addr < c.memSize ∧
      (addr = s.ic + 1 ∧ FirstSelector i b ∨ addr = s.ic + 2 ∧ ∃ dsel, (dsel = 1 ∨ dsel = 2) ∧ i = .mov dsel b)
  | .registerSelectorMismatch addr r => addr < c.memSize ∧ addr = s.ic + 1 ∧
      ((∃ ign ptr, i = .jmpIfA 2 ign ptr ∧ r = .b) ∨ (∃ ign ptr, i = .jmpIfB 1 ign ptr ∧ r = .a))
  | .divisionByZero => s.ic + 2 < c.memSize ∧ ∃ sel imm, (sel = 1 ∨ sel = 2) ∧ imm = 0 ∧ i = .div sel imm
  | .stackUnderflow => s.stack = [] ∧ ∃ ign, i = .pop ign
  | .addressOutOfRange addr => c.memSize ≤ addr
  | .unimplemented o _ => c.legacyPlaceholders = true ∧ o = s.ic
  | .invalidOpcode _ _ => False
  | .stackOverflow => s.ic + 2 < c.memSize ∧ c.stackDepth = some s.stack.length ∧ ∃ ign imm, i = .push ign imm

theorem legal_of_selReg {sel : Byte} {r : Reg} (hsel : selReg sel = some r) : sel = 1 ∨ sel = 2 :=
  (selReg_eq_some.mp hsel).imp And.left And.left

section
variable {c : Config} {s : State} {f : Fault}

theorem FaultCause.of_first_selector {i : Instr} {b : Byte} (hfirst : FirstSelector i b) (haddr : s.ic + 1 < c.memSize)
    (hsel : selReg b = none) : FaultCause c s i (.invalidRegisterSelector (s.ic + 1) b) := by
  obtain ⟨h1, h2⟩ := selReg_eq_none.mp hsel
  exact ⟨h1, h2, haddr, .inl ⟨rfl, hfirst⟩⟩

/-- R144: the indirection of the jumps raises AddressOutOfRange only. -/
theorem FaultCause.of_indirect {q : Nat} {ptr : Byte} (i : Instr) (h : indirect c s q ptr = .error f) :
    FaultCause c s i f := by
  rcases indirect_eq_error.mp h with ⟨hout, rfl⟩ | ⟨-, hout, rfl⟩ | ⟨-, -, hout, rfl⟩
  · exact hout
  · exact hout
  · exact hout

/-- R139: an arithmetic rule faults at its selector, at its immediate's address, or in its computation. -/
theorem RunsArith.faultCause {i : Byte → Byte → Instr} {g : Byte → Byte → Except Fault Byte} {sel imm : Byte}
    (hi : RunsArith i g) (hfirst : FirstSelector (i sel imm) sel)
    (hcompute : ∀ r, s.ic + 2 < c.memSize → selReg sel = some r → g (s.reg r) imm = .error f →
      FaultCause c s (i sel imm) f)
    (h : ruleIn c (i sel imm) s = .error f) : FaultCause c s (i sel imm) f := by
  rw [hi, arith_eq_error] at h
  rcases h with ⟨hout, rfl⟩ | ⟨haddr, hsel, rfl⟩ | ⟨-, -, -, hout, rfl⟩ | ⟨r, hic, hsel, hg⟩
  · exact hout
  · exact .of_first_selector hfirst haddr hsel
  · exact hout
  · exact hcompute r hic hsel hg

/-- R134: DIV's computation faults on a zero immediate only. -/
theorem FaultCause.of_divide {r : Reg} {sel imm : Byte} (hic : s.ic + 2 < c.memSize) (hsel : selReg sel = some r)
    (h : divide (s.reg r) imm = .error f) : FaultCause c s (.div sel imm) f := by
  obtain ⟨hzero, rfl⟩ := divide_eq_error.mp h
  exact ⟨hic, sel, imm, legal_of_selReg hsel, hzero, rfl⟩

/-- R142, R143: a conditional jump faults at its selector, which may name the other register, or in the indirection. -/
theorem RunsJumpIfZero.faultCause {i : Byte → Byte → Byte → Instr} {own : Reg} {sel ign ptr : Byte}
    (hi : RunsJumpIfZero i own) (hfirst : FirstSelector (i sel ign ptr) sel)
    (hmismatch : ∀ r, s.ic + 1 < c.memSize → selReg sel = some r → r ≠ own →
      FaultCause c s (i sel ign ptr) (.registerSelectorMismatch (s.ic + 1) r))
    (h : ruleIn c (i sel ign ptr) s = .error f) : FaultCause c s (i sel ign ptr) f := by
  rw [hi, jumpIfZero_eq_error] at h
  rcases h with ⟨hout, rfl⟩ | ⟨haddr, hsel, rfl⟩ | ⟨r, haddr, hsel, hne, rfl⟩ | ⟨-, -, -, htarget⟩
  · exact hout
  · exact .of_first_selector hfirst haddr hsel
  · exact hmismatch r haddr hsel hne
  · exact .of_indirect _ htarget

theorem FaultCause.jmpIfA_mismatch {r : Reg} {sel : Byte} (ign ptr : Byte) (haddr : s.ic + 1 < c.memSize)
    (hsel : selReg sel = some r) (hne : r ≠ .a) :
    FaultCause c s (.jmpIfA sel ign ptr) (.registerSelectorMismatch (s.ic + 1) r) := by
  rcases selReg_eq_some.mp hsel with ⟨-, rfl⟩ | ⟨rfl, rfl⟩
  · exact absurd rfl hne
  · exact ⟨haddr, rfl, .inl ⟨ign, ptr, rfl, rfl⟩⟩

theorem FaultCause.jmpIfB_mismatch {r : Reg} {sel : Byte} (ign ptr : Byte) (haddr : s.ic + 1 < c.memSize)
    (hsel : selReg sel = some r) (hne : r ≠ .b) :
    FaultCause c s (.jmpIfB sel ign ptr) (.registerSelectorMismatch (s.ic + 1) r) := by
  rcases selReg_eq_some.mp hsel with ⟨rfl, rfl⟩ | ⟨-, rfl⟩
  · exact ⟨haddr, rfl, .inr ⟨ign, ptr, rfl, rfl⟩⟩
  · exact absurd rfl hne

/-- R150: PUSH faults at its immediate's address or on a full STACK. -/
theorem FaultCause.of_pushIn {ign imm : Byte} (h : pushIn c ign imm s = .error f) :
    FaultCause c s (.push ign imm) f := by
  rcases pushIn_eq_error.mp h with ⟨hout, rfl⟩ | ⟨hic, hfull, rfl⟩
  · exact hout
  · exact ⟨hic, stackFull_eq_true.mp hfull, ign, imm, rfl⟩

/-- R152: POP faults on an empty STACK. -/
theorem FaultCause.of_popIn {ign : Byte} (h : popIn ign s = .error f) : FaultCause c s (.pop ign) f := by
  obtain ⟨hempty, rfl⟩ := popIn_eq_error.mp h
  exact ⟨hempty, ign, rfl⟩

/-- R160: MOV faults at its destination selector, and at its source selector once the destination is decoded. -/
theorem FaultCause.of_movIn {dsel ssel : Byte} (h : movIn c dsel ssel s = .error f) :
    FaultCause c s (.mov dsel ssel) f := by
  rcases movIn_eq_error.mp h with ⟨hlegacy, rfl⟩ |
    ⟨-, ⟨hout, rfl⟩ | ⟨haddr, hdst, rfl⟩ | ⟨d, -, hdst, ⟨hout, rfl⟩ | ⟨haddr, hsrc, rfl⟩⟩⟩
  · exact ⟨hlegacy, rfl⟩
  · exact hout
  · exact .of_first_selector (.inr (.inr (.inl ⟨ssel, rfl⟩))) haddr hdst
  · exact hout
  · obtain ⟨h1, h2⟩ := selReg_eq_none.mp hsrc
    exact ⟨h1, h2, haddr, .inr ⟨rfl, dsel, legal_of_selReg hdst, rfl⟩⟩

/-- R162: PRINT faults at its selector. -/
theorem FaultCause.of_printIn {sel : Byte} (h : printIn c sel s = .error f) : FaultCause c s (.print sel) f := by
  rcases printIn_eq_error.mp h with ⟨hlegacy, rfl⟩ | ⟨-, ⟨hout, rfl⟩ | ⟨haddr, hsel, rfl⟩⟩
  · exact ⟨hlegacy, rfl⟩
  · exact hout
  · exact .of_first_selector (.inr (.inr (.inr rfl))) haddr hsel

/-- No rule faults without the fault's cause. -/
theorem faultCause_of_ruleIn {i : Instr} (h : ruleIn c i s = .error f) : FaultCause c s i f := by
  cases i with
  | halt => exact absurd h (haltIn_ne_error s f)
  | add sel imm => exact add_runsArith.faultCause (.inl ⟨imm, .inl rfl⟩) nofun h
  | sub sel imm => exact sub_runsArith.faultCause (.inl ⟨imm, .inr (.inl rfl)⟩) nofun h
  | mult sel imm => exact mult_runsArith.faultCause (.inl ⟨imm, .inr (.inr (.inl rfl))⟩) nofun h
  | div sel imm => exact div_runsArith.faultCause (.inl ⟨imm, .inr (.inr (.inr rfl))⟩) (fun _ => .of_divide) h
  | jmp ign ptr => exact .of_indirect _ ((jmpIn_eq_error (ign := ign)).mp h)
  | jmpIfA sel ign ptr =>
    exact jmpIfA_runsJumpIfZero.faultCause (.inr (.inl ⟨ign, ptr, .inl rfl⟩)) (fun _ => .jmpIfA_mismatch ign ptr) h
  | jmpIfB sel ign ptr =>
    exact jmpIfB_runsJumpIfZero.faultCause (.inr (.inl ⟨ign, ptr, .inr rfl⟩)) (fun _ => .jmpIfB_mismatch ign ptr) h
  | push ign imm => exact .of_pushIn h
  | pop ign => exact .of_popIn h
  | mov dsel ssel => exact .of_movIn h
  | print sel => exact .of_printIn h

theorem faultCause_of_execIn {i : Instr} (h : execIn c i s = .fault f) : FaultCause c s i f :=
  faultCause_of_ruleIn (execIn_eq_fault.mp h)

theorem faultCause_of_exec {i : Instr} (h : exec i s = .fault f) : FaultCause Config.hardware s i f :=
  faultCause_of_ruleIn (exec_eq_fault.mp h)

end

/-! #### InvalidRegisterSelector (R187) -/

section
variable {s : State} {b : Byte}

theorem RunsArith.exec_invalid_selector {i : Byte → Byte → Instr} {g : Byte → Byte → Except Fault Byte}
    (hi : RunsArith i g) (imm : Byte) (haddr : s.ic + 1 < 65535) (h1 : b ≠ 1) (h2 : b ≠ 2) :
    exec (i b imm) s = .fault (.invalidRegisterSelector (s.ic + 1) b) := by
  obtain ⟨-, hselector, -⟩ := hi.selectorThenByteFaults s b imm
  exact hselector haddr h1 h2

/-- R187, R195: an illegal first selector faults right after the check of its address, in every such instruction. -/
theorem exec_of_illegal_first_selector {i : Instr} (hfirst : FirstSelector i b) (haddr : s.ic + 1 < 65535)
    (h1 : b ≠ 1) (h2 : b ≠ 2) : exec i s = .fault (.invalidRegisterSelector (s.ic + 1) b) := by
  have hsel := selReg_eq_none.mpr ⟨h1, h2⟩
  rcases hfirst with ⟨imm, rfl | rfl | rfl | rfl⟩ | ⟨ign, ptr, rfl | rfl⟩ | ⟨ssel, rfl⟩ | rfl
  · exact add_runsArith.exec_invalid_selector imm haddr h1 h2
  · exact sub_runsArith.exec_invalid_selector imm haddr h1 h2
  · exact mult_runsArith.exec_invalid_selector imm haddr h1 h2
  · exact div_runsArith.exec_invalid_selector imm haddr h1 h2
  · exact jmpIfA_runsJumpIfZero.exec_invalid_selector haddr h1 h2
  · exact jmpIfB_runsJumpIfZero.exec_invalid_selector haddr h1 h2
  · exact exec_mov_fault_iff.mpr (.inr (.inl ⟨haddr, hsel, rfl⟩))
  · exact exec_print_fault_iff.mpr (.inr ⟨haddr, hsel, rfl⟩)

/-- R160: MOV decodes its source selector after a legal destination selector. -/
theorem exec_mov_of_illegal_source {dsel : Byte} (hlegal : dsel = 1 ∨ dsel = 2) (haddr : s.ic + 2 < 65535)
    (h1 : b ≠ 1) (h2 : b ≠ 2) : exec (.mov dsel b) s = .fault (.invalidRegisterSelector (s.ic + 2) b) := by
  obtain ⟨d, hdst⟩ := selReg_of_legal hlegal
  have hsrc := selReg_eq_none.mpr ⟨h1, h2⟩
  exact exec_mov_fault_iff.mpr (.inr (.inr ⟨d, Nat.lt_of_succ_lt haddr, hdst, .inr ⟨haddr, hsrc, rfl⟩⟩))

end

/-- Settles O30: the byte is the instruction's first selector, or MOV's source selector after a legal destination. -/
theorem invalidSelectorIsRaisedExactlyThen : Obligations.InvalidSelectorIsRaisedExactlyThen := by
  unfold Obligations.InvalidSelectorIsRaisedExactlyThen
  intro i s addr b
  refine ⟨faultCause_of_exec, ?raised⟩
  case raised =>
    rintro ⟨h1, h2, haddr, ⟨rfl, hfirst⟩ | ⟨rfl, dsel, hlegal, rfl⟩⟩
    · exact exec_of_illegal_first_selector hfirst haddr h1 h2
    · exact exec_mov_of_illegal_source hlegal haddr h1 h2

/-! #### RegisterSelectorMismatch (R188) -/

/-- Settles O31: of the two legal selectors each conditional jump refuses the other register's. -/
theorem mismatchIsRaisedExactlyThen : Obligations.MismatchIsRaisedExactlyThen := by
  unfold Obligations.MismatchIsRaisedExactlyThen
  intro i s addr r
  refine ⟨faultCause_of_exec, ?raised⟩
  case raised =>
    rintro ⟨haddr, rfl, ⟨ign, ptr, rfl, rfl⟩ | ⟨ign, ptr, rfl, rfl⟩⟩
    · exact jmpIfA_runsJumpIfZero.exec_selector_mismatch selReg_two (by decide) haddr
    · exact jmpIfB_runsJumpIfZero.exec_selector_mismatch selReg_one (by decide) haddr

/-! #### DivisionByZero (R189) -/

/-- Settles O32: the fault is DIV's own and comes after both operand bytes; a fault carries no state (R197). -/
theorem divisionByZeroIsRaisedExactlyThen : Obligations.DivisionByZeroIsRaisedExactlyThen := by
  unfold Obligations.DivisionByZeroIsRaisedExactlyThen
  refine ⟨fun i s => ⟨faultCause_of_exec, ?raised⟩, fun _ _ => state_eq_of_stepResultIn_fault⟩
  case raised =>
    rintro ⟨hic, sel, imm, hlegal, rfl, rfl⟩
    exact exec_div_by_zero hic hlegal

/-! #### StackUnderflow (R190) -/

/-- Settles O33: an empty STACK is POP's one fault, and no other rule takes from STACK. -/
theorem stackUnderflowIsRaisedExactlyThen : Obligations.StackUnderflowIsRaisedExactlyThen := by
  unfold Obligations.StackUnderflowIsRaisedExactlyThen
  intro i s
  refine ⟨faultCause_of_exec, ?raised⟩
  case raised =>
    rintro ⟨hempty, ign, rfl⟩
    exact exec_pop_empty_stack ign hempty

/-! #### StackOverflow (R194) -/

theorem fetchFault_ne_stackOverflow (s : State) (e : DecodeError) : fetchFault s e ≠ .stackOverflow := by
  cases e with
  | noBytes => exact nofun
  | invalidOpcode opc => exact nofun
  | truncated opc k => exact nofun

theorem fetchInstr_ne_stackOverflow (c : Config) (s : State) : fetchInstr c s ≠ .error .stackOverflow := by
  intro h
  rcases fetchInstr_eq_error.mp h with ⟨-, hfault⟩ | ⟨-, e, -, hfault⟩
  · cases hfault
  · exact fetchFault_ne_stackOverflow s e hfault.symm

/-- R151, R194: with STACK_DEPTH unbounded no step overflows STACK. -/
theorem stepIn_ne_stackOverflow {c : Config} (hdepth : c.stackDepth = none) (s : State) :
    stepIn c s ≠ .fault .stackOverflow := by
  intro h
  rcases stepIn_eq_fault.mp h with hfetch | ⟨i, -, -, hrule⟩
  · exact fetchInstr_ne_stackOverflow c s hfetch
  · obtain ⟨-, hfull, -⟩ := faultCause_of_ruleIn hrule
    rw [hdepth] at hfull
    cases hfull

/-- Settles O34: the full STACK is PUSH's second check at every configuration, and this hardware's is never full. -/
theorem stackOverflowIsRaisedExactlyThen : Obligations.StackOverflowIsRaisedExactlyThen := by
  unfold Obligations.StackOverflowIsRaisedExactlyThen
  refine ⟨fun c i s => ⟨faultCause_of_execIn, ?raised⟩, ?neverOnThisHardware⟩
  case raised =>
    rintro ⟨hic, hfull, ign, imm, rfl⟩
    exact execIn_push_full_stack ign imm hic hfull
  case neverOnThisHardware =>
    intro s
    rw [step_eq_stepIn]
    exact stepIn_ne_stackOverflow hardware_stackDepth s

end Sys2Proof.Machine

/-! ### Decoding and encoding (R80 to R90)

The opcode byte chooses the format, and a format takes the operand bytes in the order in which the encoder gives them.
So a list decodes to an instruction exactly when it begins with that instruction's encoding, and every fact below about
what a fetch reads is this one equivalence, applied to the bytes at IC. -/

namespace Sys2Proof

/-! #### Decode and encode -/

/-- R112: bytes after the footprint are left alone. -/
theorem decode_encode_append (i : Instr) (rest : List Byte) : decode (encode i ++ rest) = .ok i := by
  cases i <;> rfl

theorem decode_encode (i : Instr) : decode (encode i) = .ok i := by
  simpa using decode_encode_append i []

/-! A format whose constructor encodes to the opcode and then its operands reads exactly an encoding. -/

section
variable {opc : Byte} {rest : List Byte} {i : Instr}

theorem encode_append_of_decodeOne {f : Byte → Instr} (hf : ∀ x, encode (f x) = [opc, x])
    (h : decodeOne opc f rest = .ok i) : ∃ after, opc :: rest = encode i ++ after := by
  obtain ⟨x, after, rfl, rfl⟩ := decodeOne_eq_ok.mp h
  exact ⟨after, by simp [hf]⟩

theorem encode_append_of_decodeTwo {f : Byte → Byte → Instr} (hf : ∀ x y, encode (f x y) = [opc, x, y])
    (h : decodeTwo opc f rest = .ok i) : ∃ after, opc :: rest = encode i ++ after := by
  obtain ⟨x, y, after, rfl, rfl⟩ := decodeTwo_eq_ok.mp h
  exact ⟨after, by simp [hf]⟩

theorem encode_append_of_decodeThree {f : Byte → Byte → Byte → Instr}
    (hf : ∀ x y z, encode (f x y z) = [opc, x, y, z]) (h : decodeThree opc f rest = .ok i) :
    ∃ after, opc :: rest = encode i ++ after := by
  obtain ⟨x, y, z, after, rfl, rfl⟩ := decodeThree_eq_ok.mp h
  exact ⟨after, by simp [hf]⟩

end

/-- R87: what decodes begins with the encoding of what it decodes to, opcode by opcode. -/
theorem encode_append_of_decode {bs : List Byte} {i : Instr} (h : decode bs = .ok i) :
    ∃ after, bs = encode i ++ after := by
  cases bs with
  | nil => cases h
  | cons opc rest =>
    rcases opcode_cases opc with
      rfl | rfl | rfl | rfl | rfl | rfl | rfl | rfl | rfl | rfl | rfl | rfl | hillegal
    · obtain rfl : Instr.halt = i := Except.ok.inj h
      exact ⟨rest, rfl⟩
    · exact encode_append_of_decodeTwo (f := .add) (fun _ _ => rfl) h
    · exact encode_append_of_decodeTwo (f := .sub) (fun _ _ => rfl) h
    · exact encode_append_of_decodeTwo (f := .mult) (fun _ _ => rfl) h
    · exact encode_append_of_decodeTwo (f := .div) (fun _ _ => rfl) h
    · exact encode_append_of_decodeTwo (f := .jmp) (fun _ _ => rfl) h
    · exact encode_append_of_decodeThree (f := .jmpIfA) (fun _ _ _ => rfl) h
    · exact encode_append_of_decodeThree (f := .jmpIfB) (fun _ _ _ => rfl) h
    · exact encode_append_of_decodeTwo (f := .push) (fun _ _ => rfl) h
    · exact encode_append_of_decodeOne (f := .pop) (fun _ => rfl) h
    · exact encode_append_of_decodeTwo (f := .mov) (fun _ _ => rfl) h
    · exact encode_append_of_decodeOne (f := .print) (fun _ => rfl) h
    · rw [decode_of_illegal_opcode hillegal] at h
      cases h

/-- Settles O4: what decodes begins with an encoding, and an encoding decodes whatever follows it. -/
theorem decodeIsTheInverseOfEncode : Obligations.DecodeIsTheInverseOfEncode := by
  unfold Obligations.DecodeIsTheInverseOfEncode
  intro bs i
  refine ⟨encode_append_of_decode, ?encoded⟩
  case encoded =>
    rintro ⟨rest, rfl⟩
    exact decode_encode_append i rest

/-- Settles O3: each word is an encoding, and 0x0C is no opcode. -/
theorem wordsOfTheFormatTablesDecode : Obligations.WordsOfTheFormatTablesDecode := by
  unfold Obligations.WordsOfTheFormatTablesDecode
  exact ⟨decode_encode .halt, decode_encode (.add 2 16), decode_encode (.jmp 0x77 4),
    decode_encode (.jmpIfA 1 0x55 4), decode_encode (.push 0x99 42), decode_encode (.pop 0x99),
    decode_encode (.mov 2 1), decode_encode (.print 2), decode_of_illegal_opcode (by decide) []⟩

/-! #### The opcode byte alone decides legality -/

/-- R83, R87: behind one of the twelve opcodes a list is read in a format, which can only run short of bytes. -/
theorem decode_ne_invalid_of_legal_opcode {opc : Byte} (hlegal : opc.toNat < 12) (b : Byte) (rest : List Byte) :
    decode (opc :: rest) ≠ .error (.invalidOpcode b) := by
  rcases opcode_cases opc with
    rfl | rfl | rfl | rfl | rfl | rfl | rfl | rfl | rfl | rfl | rfl | rfl | hillegal
  · exact nofun
  · exact decodeTwo_ne_invalid 0x01 b .add rest
  · exact decodeTwo_ne_invalid 0x02 b .sub rest
  · exact decodeTwo_ne_invalid 0x03 b .mult rest
  · exact decodeTwo_ne_invalid 0x04 b .div rest
  · exact decodeTwo_ne_invalid 0x05 b .jmp rest
  · exact decodeThree_ne_invalid 0x06 b .jmpIfA rest
  · exact decodeThree_ne_invalid 0x07 b .jmpIfB rest
  · exact decodeTwo_ne_invalid 0x08 b .push rest
  · exact decodeOne_ne_invalid 0x09 b .pop rest
  · exact decodeTwo_ne_invalid 0x0A b .mov rest
  · exact decodeOne_ne_invalid 0x0B b .print rest
  · omega

/-- Settles O5: an illegal opcode fails every test of the decoder; a legal one leads to an operand reader. -/
theorem decodeRefusesExactlyTheIllegalOpcodes : Obligations.DecodeRefusesExactlyTheIllegalOpcodes := by
  unfold Obligations.DecodeRefusesExactlyTheIllegalOpcodes
  intro opc rest
  refine ⟨?refused, fun hillegal => decode_of_illegal_opcode hillegal rest⟩
  case refused =>
    intro h
    by_contra hlegal
    exact decode_ne_invalid_of_legal_opcode (Nat.lt_of_not_le hlegal) opc rest h

end Sys2Proof

/-! ### Fetch (R80, R111, R112)

`EncodedAt s i` says that the bytes of RAM from IC on are those of `i`; it is what the fetch answers `i` for. -/

namespace Sys2Proof.Machine

/-- The encoding of `i` lies in RAM from IC on. -/
def EncodedAt (s : State) (i : Instr) : Prop :=
  ∀ (k : Nat) (h : k < (encode i).length), s.ram.read (s.ic + k) = (encode i)[k]

theorem encode_length_le_window (i : Instr) : (encode i).length ≤ maxFootprint := by
  cases i <;> simp [encode, maxFootprint]

theorem fetchWindow_length (s : State) : (fetchWindow s).length = maxFootprint := rfl

theorem fetchWindow_getElem (s : State) (k : Nat) (h : k < (fetchWindow s).length) :
    (fetchWindow s)[k] = s.ram.read (s.ic + k) := by
  simp [fetchWindow]

/-- R80, R112: the bytes at IC decode to `i` exactly when they are the bytes of `i`. -/
theorem decode_fetchWindow_iff {s : State} {i : Instr} : decode (fetchWindow s) = .ok i ↔ EncodedAt s i := by
  have hlen := encode_length_le_window i
  constructor
  · intro h k hk
    obtain ⟨after, hafter⟩ := encode_append_of_decode h
    have hk' : k < (fetchWindow s).length := hk.trans_le hlen
    simp [← fetchWindow_getElem s k hk', hafter, hk]
  · intro h
    have htake : (fetchWindow s).take (encode i).length = encode i :=
      List.ext_getElem (by simpa [fetchWindow_length] using hlen) fun k _ hk => by
        rw [List.getElem_take, fetchWindow_getElem, h k hk]
    rw [← List.take_append_drop (encode i).length (fetchWindow s), htake]
    exact decode_encode_append i _

/-- R110, R111: the step is the meaning of the fetched instruction, with nothing around it. -/
theorem step_of_decode {s : State} {i : Instr} (hic : s.ic < 65535) (h : decode (fetchWindow s) = .ok i) :
    step s = exec i s := by
  have hfetch : fetchInstr Config.hardware s = .ok i := fetchInstr_eq_ok.mpr ⟨hic, h⟩
  rw [step, hfetch]

/-- Settles O6: the fetch reads the four bytes from IC on. -/
theorem stepRunsTheDecodedInstruction : Obligations.StepRunsTheDecodedInstruction := by
  unfold Obligations.StepRunsTheDecodedInstruction
  exact fun s i => step_of_decode

/-- Settles O7: the bytes of an encoding decode to it, whatever follows them. -/
theorem stepRunsTheEncodedInstruction : Obligations.StepRunsTheEncodedInstruction := by
  unfold Obligations.StepRunsTheEncodedInstruction
  exact fun s i hic hbytes => step_of_decode hic (decode_fetchWindow_iff.mpr hbytes)

/-- Settles O9: the check of the address comes before the read. -/
theorem fetchOutsideRamFaults : Obligations.FetchOutsideRamFaults := by
  unfold Obligations.FetchOutsideRamFaults
  exact fun s hic => (step_eq_stepIn s).trans (stepIn_of_ic_outside_ram hic)

/-! #### Placing an instruction word -/

section
variable {c : Config}

/-- R14: writing bytes changes RAM only. -/
theorem memWriteBytes_frame (s : State) (addr : Nat) (vs : List Byte) :
    memWriteBytes c s addr vs = { s with ram := (memWriteBytes c s addr vs).ram } := by
  induction vs generalizing s addr with
  | nil => rfl
  | cons v vs ih =>
    rw [memWriteBytes, ih]
    unfold memWrite
    split <;> rfl

theorem memWrite_ram_wf {s : State} (addr : Nat) (v : Byte) (hwf : s.ram.wf = true) :
    (memWrite c s addr v).ram.wf = true := by
  unfold memWrite
  split
  · exact Memory.wf_write addr v hwf
  · exact hwf

theorem memWrite_ram_read {s : State} {addr : Nat} (v : Byte) (x : Nat) (hwf : s.ram.wf = true)
    (haddr : addr < c.memSize) : (memWrite c s addr v).ram.read x = if x = addr then v else s.ram.read x := by
  rw [memWrite, if_pos haddr]
  exact Memory.read_write addr v x hwf

/-- Outside the range written every address reads as before. -/
theorem memWriteBytes_read_outside {s : State} {addr x : Nat} {vs : List Byte} (hwf : s.ram.wf = true)
    (hin : addr + vs.length ≤ c.memSize) (hx : x < addr ∨ addr + vs.length ≤ x) :
    (memWriteBytes c s addr vs).ram.read x = s.ram.read x := by
  induction vs generalizing s addr with
  | nil => rfl
  | cons v vs ih =>
    rw [List.length_cons] at hin hx
    rw [memWriteBytes, ih (memWrite_ram_wf addr v hwf) (by omega) (by omega),
      memWrite_ram_read v x hwf (by omega), if_neg (by omega)]

/-- Inside the range written every address reads the byte written there. -/
theorem memWriteBytes_read_inside {s : State} {addr k : Nat} {vs : List Byte} (hwf : s.ram.wf = true)
    (hin : addr + vs.length ≤ c.memSize) (hk : k < vs.length) :
    (memWriteBytes c s addr vs).ram.read (addr + k) = vs[k] := by
  induction vs generalizing s addr k with
  | nil => cases hk
  | cons v vs ih =>
    rw [List.length_cons] at hin
    have hwf' := memWrite_ram_wf (c := c) addr v hwf
    have hin' : addr + 1 + vs.length ≤ c.memSize := by omega
    rw [memWriteBytes]
    cases k with
    | zero =>
      rw [memWriteBytes_read_outside hwf' hin' (by omega), memWrite_ram_read v _ hwf (by omega)]
      simp
    | succ k =>
      have hk' : k < vs.length := Nat.lt_of_succ_lt_succ hk
      have hshift : addr + (k + 1) = addr + 1 + k := by omega
      rw [hshift, ih hwf' hin' hk', List.getElem_cons_succ]

end

theorem decodeTableWord_eq_some {nbits w : Nat} {i : Instr} :
    decodeTableWord nbits w = some i ↔ decode (tableWordBytes nbits w) = .ok i := by
  unfold decodeTableWord
  cases decode (tableWordBytes nbits w) <;> simp

theorem withFetchWord_frame (s : State) (nbits w : Nat) :
    s.withFetchWord nbits w = { s with ram := (s.withFetchWord nbits w).ram } :=
  memWriteBytes_frame s s.ic _

theorem withFetchWord_ic (s : State) (nbits w : Nat) : (s.withFetchWord nbits w).ic = s.ic := by
  rw [withFetchWord_frame]

/-- The next fetch of the state reads the word that was placed. -/
theorem fetchWindow_withFetchWord {s : State} (nbits w : Nat) (hwf : s.ram.wf = true) (hic : s.ic + 3 < 65535) :
    fetchWindow (s.withFetchWord nbits w) = tableWordBytes nbits w := by
  refine List.ext_getElem rfl fun k _ hk => ?_
  rw [fetchWindow_getElem, withFetchWord_ic]
  exact memWriteBytes_read_inside hwf (Nat.succ_le_of_lt hic) hk

/-- Settles O8: the fetch reads the placed word back, and the other addresses lie outside the range written. -/
theorem placedInstructionIsRun : Obligations.PlacedInstructionIsRun := by
  unfold Obligations.PlacedInstructionIsRun
  intro s nbits w i hwf hic hword
  refine ⟨?runs, withFetchWord_frame s nbits w, fun a ha => ?outside⟩
  case runs =>
    have hfetched : (s.withFetchWord nbits w).ic < 65535 := by
      rw [withFetchWord_ic]
      omega
    refine step_of_decode hfetched ?_
    rw [fetchWindow_withFetchWord nbits w hwf hic]
    exact decodeTableWord_eq_some.mp hword
  case outside => exact memWriteBytes_read_outside hwf (Nat.succ_le_of_lt hic) ha

end Sys2Proof.Machine

/-! ### What a step that completes does

`StepEffect` reads the outcome of a completed step off RAM: the opcode byte at IC says which fields of the state the
step wrote, and the bytes after it say with what. One case split over the twelve instructions shows that a step does nothing
else; every frame, the invariant, and how each field moves follow from the nine cases. -/

namespace Sys2Proof.Machine

/-! #### The cases -/

/-- The opcode of the conditional jump on a register (R87). -/
def Reg.jumpOpcode : Reg → Byte
  | .a => 0x06
  | .b => 0x07

/-- How a step that completes leaves the state, with the bounds that its checks have established (R131 to R164). -/
inductive StepEffect (c : Config) (s : State) : State → Prop where
  | halt (hop : s.ram.read s.ic = 0x00) : StepEffect c s (s.setReport .halted)
  | arith (v : Byte)
      (hop : s.ram.read s.ic = 0x01 ∨ s.ram.read s.ic = 0x02 ∨ s.ram.read s.ic = 0x03 ∨ s.ram.read s.ic = 0x04)
      (hin : s.ic + 2 < c.memSize) : StepEffect c s (((s.setReg .a v).setIc (s.ic + 3)).setReport .ok)
  | jmp (hop : s.ram.read s.ic = 0x05) (hin : (s.ram.read (s.ram.read (s.ic + 2)).toNat).toNat < c.memSize) :
      StepEffect c s ((s.setIc (s.ram.read (s.ram.read (s.ic + 2)).toNat).toNat).setReport .ok)
  | taken (own : Reg) (hop : s.ram.read s.ic = own.jumpOpcode) (hzero : s.reg own = 0)
      (hin : (s.ram.read (s.ram.read (s.ic + 3)).toNat).toNat < c.memSize) :
      StepEffect c s ((s.setIc (s.ram.read (s.ram.read (s.ic + 3)).toNat).toNat).setReport .ok)
  | notTaken (own : Reg) (hop : s.ram.read s.ic = own.jumpOpcode) (hzero : s.reg own ≠ 0)
      (hin : s.ic + 1 < c.memSize) : StepEffect c s ((s.setIc (s.ic + 3)).setReport .ok)
  | push (hop : s.ram.read s.ic = 0x08) (hroom : c.stackDepth ≠ some s.stack.length) (hin : s.ic + 2 < c.memSize) :
      StepEffect c s (((s.pushByte (s.ram.read (s.ic + 2))).setIc (s.ic + 3)).setReport .ok)
  | pop (hop : s.ram.read s.ic = 0x09) : StepEffect c s ((s.popByte.setIc (s.ic + 2)).setReport .ok)
  | mov (d r : Reg) (hop : s.ram.read s.ic = 0x0A) (hd : selReg (s.ram.read (s.ic + 1)) = some d)
      (hin : s.ic + 2 < c.memSize) :
      StepEffect c s (((s.setReg d (s.reg r)).setIc (s.ic + 3)).setReport .ok)
  | print (r : Reg) (hop : s.ram.read s.ic = 0x0B) (hr : selReg (s.ram.read (s.ic + 1)) = some r)
      (hin : s.ic + 1 < c.memSize) : StepEffect c s (((s.emit r).setIc (s.ic + 2)).setReport .ok)

section
variable {c : Config} {s t : State}

/-- R142, R143: the two ends of a conditional jump that completes. -/
theorem StepEffect.of_jumpIfZero {own : Reg} {sel : Byte} (hop : s.ram.read s.ic = own.jumpOpcode)
    (h : jumpIfZero c own sel (s.ram.read (s.ic + 3)) s = .ok t) : StepEffect c s t := by
  obtain ⟨haddr, -, ⟨hzero, _, htarget, rfl⟩ | ⟨hzero, rfl⟩⟩ := jumpIfZero_eq_ok.mp h
  · obtain ⟨-, -, rfl, hin⟩ := indirect_eq_ok.mp htarget
    exact .taken own hop (State.isZero_eq_true.mp hzero) hin
  · exact .notTaken own hop (State.isZero_eq_false.mp hzero) haddr

/-- The rule of the instruction that lies at IC has one of the nine effects. -/
theorem StepEffect.of_completes {i : Instr} (hbytes : EncodedAt s i) (h : Completes c s t i) : StepEffect c s t := by
  have hop (k : Byte) (rest : List Byte) (hi : encode i = k :: rest) : s.ram.read s.ic = k := by
    simpa [hi] using hbytes 0 (by simp [hi])
  cases i with
  | halt =>
    obtain rfl := h
    exact .halt (hop _ _ rfl)
  | add sel imm =>
    obtain ⟨hin, _, -, rfl⟩ := h
    exact .arith _ (.inl (hop _ _ rfl)) hin
  | sub sel imm =>
    obtain ⟨hin, _, -, rfl⟩ := h
    exact .arith _ (.inr (.inl (hop _ _ rfl))) hin
  | mult sel imm =>
    obtain ⟨hin, _, -, rfl⟩ := h
    exact .arith _ (.inr (.inr (.inl (hop _ _ rfl)))) hin
  | div sel imm =>
    obtain ⟨hin, -, _, -, rfl⟩ := h
    exact .arith _ (.inr (.inr (.inr (hop _ _ rfl)))) hin
  | jmp ign ptr =>
    obtain rfl : s.ram.read (s.ic + 2) = ptr := hbytes 2 (by simp [encode])
    obtain ⟨_, htarget, rfl⟩ := h
    obtain ⟨-, -, rfl, hin⟩ := indirect_eq_ok.mp htarget
    exact .jmp (hop _ _ rfl) hin
  | jmpIfA sel ign ptr =>
    obtain rfl : s.ram.read (s.ic + 3) = ptr := hbytes 3 (by simp [encode])
    exact .of_jumpIfZero (hop _ _ rfl) (jumpIfZero_eq_ok.mpr h)
  | jmpIfB sel ign ptr =>
    obtain rfl : s.ram.read (s.ic + 3) = ptr := hbytes 3 (by simp [encode])
    exact .of_jumpIfZero (hop _ _ rfl) (jumpIfZero_eq_ok.mpr h)
  | push ign imm =>
    obtain rfl : s.ram.read (s.ic + 2) = imm := hbytes 2 (by simp [encode])
    obtain ⟨hin, hroom, rfl⟩ := h
    exact .push (hop _ _ rfl) (stackFull_eq_false.mp hroom) hin
  | pop ign =>
    obtain ⟨-, rfl⟩ := h
    exact .pop (hop _ _ rfl)
  | mov dsel ssel =>
    obtain rfl : s.ram.read (s.ic + 1) = dsel := hbytes 1 (by simp [encode])
    obtain ⟨-, hin, d, r, hd, -, rfl⟩ := h
    exact .mov d r (hop _ _ rfl) hd hin
  | print sel =>
    obtain rfl : s.ram.read (s.ic + 1) = sel := hbytes 1 (by simp [encode])
    obtain ⟨-, hin, r, hr, rfl⟩ := h
    exact .print r (hop _ _ rfl) hr hin

theorem stepIn_effect (h : stepIn c s = .next t) : s.ic < c.memSize ∧ StepEffect c s t := by
  obtain ⟨i, hic, hdecode, hcompletes⟩ := stepIn_next_iff.mp h
  exact ⟨hic, .of_completes (decode_fetchWindow_iff.mp hdecode) hcompletes⟩

theorem step_effect (h : step s = .next t) : StepEffect Config.hardware s t := by
  rw [step_eq_stepIn] at h
  obtain ⟨-, heffect⟩ := stepIn_effect h
  exact heffect

/-! #### Frames -/

/-- R57: no effect writes RAM. -/
theorem StepEffect.ram_eq (h : StepEffect c s t) : t.ram = s.ram := by
  cases h <;> simp

/-- R32: no effect writes ROM. -/
theorem StepEffect.rom_eq (h : StepEffect c s t) : t.rom = s.rom := by
  cases h <;> simp

/-- R177: OUT gains at most one event. -/
theorem StepEffect.out_eq (h : StepEffect c s t) : ∃ ev : Option OutEvent, t.out = s.out ++ ev.toList := by
  cases h with
  | print r => exact ⟨some { reg := r, value := s.reg r }, rfl⟩
  | halt | arith | jmp | taken | notTaken | push | pop | mov => exact ⟨none, by simp⟩

/-- R164: the one effect that reports Halted is that of HALT. -/
theorem StepEffect.of_halted (h : StepEffect c s t) (hreport : t.report = .halted) :
    s.ram.read s.ic = 0x00 ∧ t = s.setReport .halted := by
  cases h with
  | halt hop => exact ⟨hop, rfl⟩
  | arith | jmp | taken | notTaken | push | pop | mov | print => cases hreport

end

/-! #### What a host operation leaves -/

section
variable {c : Config} {s t : State} {r : HostReply}

/-- R175, R197: the state after a host Step is that of the step, or after a fault the state before. -/
theorem state_of_hostOpIn_step (h : hostOpIn c .step s = .ok (r, t)) : stepIn c s = .next t ∨ t = s := by
  rcases stepIn_next_or_fault c s with ⟨u, hnext⟩ | ⟨f, hfault⟩
  · obtain ⟨-, rfl⟩ := Prod.mk.inj (Except.ok.inj ((hostOpIn_step_of_next hnext).symm.trans h))
    exact .inl hnext
  · obtain ⟨-, rfl⟩ := Prod.mk.inj (Except.ok.inj ((hostOpIn_step_of_fault hfault).symm.trans h))
    exact .inr rfl

/-- R172: a LoadRAM that is taken loads an image of the one length. -/
theorem state_of_hostOpIn_loadRam {image : List Byte} (h : hostOpIn c (.loadRam image) s = .ok (r, t)) :
    image.length = c.memSize ∧ t = { s with ram := Memory.ofBytes 0 image } := by
  by_cases hlen : image.length = c.memSize
  · obtain ⟨-, rfl⟩ := Prod.mk.inj (Except.ok.inj ((hostOpIn_loadRam_of_length s hlen).symm.trans h))
    exact ⟨hlen, rfl⟩
  · cases (hostOpIn_loadRam_of_wrong_length s hlen).symm.trans h

/-- R173: a LoadROM that is taken loads an image of the one length. -/
theorem state_of_hostOpIn_loadRom {image : List Byte} (h : hostOpIn c (.loadRom image) s = .ok (r, t)) :
    image.length = c.memSize ∧ t = s.withRom (Memory.ofBytes 0 image) := by
  by_cases hlen : image.length = c.memSize
  · obtain ⟨-, rfl⟩ := Prod.mk.inj (Except.ok.inj ((hostOpIn_loadRom_of_length s hlen).symm.trans h))
    exact ⟨hlen, rfl⟩
  · cases (hostOpIn_loadRom_of_wrong_length s hlen).symm.trans h

/-- R57: a host Step leaves both memories. -/
theorem memories_of_hostOpIn_step (h : hostOpIn c .step s = .ok (r, t)) : t.ram = s.ram ∧ t.rom = s.rom := by
  rcases state_of_hostOpIn_step h with hnext | rfl
  · obtain ⟨-, heffect⟩ := stepIn_effect hnext
    exact ⟨heffect.ram_eq, heffect.rom_eq⟩
  · exact ⟨rfl, rfl⟩

end

/-! ### The invariant (R6, R25, R30)

The bound on IC is what the checks of a step leave: an operand byte that was read lies inside RAM, so IC ends at most
one past MEM_SIZE. STACK grows only past the check that it has room. -/

theorem stackFits_eq_true {c : Config} {s : State} :
    stackFits c s = true ↔ ∀ depth, c.stackDepth = some depth → s.stack.length ≤ depth := by
  unfold stackFits
  cases c.stackDepth <;> simp

section
variable {c : Config} {s t : State}

/-- R25: IC ends at most one past MEM_SIZE. -/
theorem StepEffect.ic_le (h : StepEffect c s t) (hic : s.ic < c.memSize) : t.ic ≤ c.memSize + 1 := by
  cases h with
  | halt => exact Nat.le_succ_of_le hic.le
  | jmp _ hin | taken _ _ _ hin => exact Nat.le_succ_of_le hin.le
  | arith _ _ hin | push _ _ hin | mov _ _ _ _ hin => exact Nat.succ_le_succ hin.le
  | notTaken _ _ _ hin | print _ _ _ hin => exact Nat.succ_le_succ (by omega)
  | pop => exact Nat.succ_le_succ hic

/-- R30: STACK grows only by a PUSH that found room. -/
theorem StepEffect.stackFits (h : StepEffect c s t) (hfits : stackFits c s = true) : stackFits c t = true := by
  rw [stackFits_eq_true] at hfits ⊢
  intro depth hdepth
  have hle := hfits depth hdepth
  cases h with
  | push _ hroom =>
    have hne : s.stack.length ≠ depth := fun hfull => hroom (hfull ▸ hdepth)
    simp
    omega
  | pop =>
    simp
    omega
  | halt | arith | jmp | taken | notTaken | mov | print => simpa using hle

/-- A step keeps the invariant at every value of the parameters. -/
theorem stepIn_keeps_inv (hinv : s.Inv c) (h : stepIn c s = .next t) : t.Inv c := by
  obtain ⟨hram, hramIn, hrom, hromIn, -, hfits⟩ := hinv
  obtain ⟨hic, heffect⟩ := stepIn_effect h
  refine ⟨?_, ?_, ?_, ?_, heffect.ic_le hic, heffect.stackFits hfits⟩
  · rwa [heffect.ram_eq]
  · rwa [heffect.ram_eq]
  · rwa [heffect.rom_eq]
  · rwa [heffect.rom_eq]

end

/-- Settles O45: the step of this hardware is the configured step, and its MEM_SIZE is 65535. -/
theorem everyStepKeepsTheInvariant : Obligations.EveryStepKeepsTheInvariant := by
  unfold Obligations.EveryStepKeepsTheInvariant
  intro s t hinv h
  rw [step_eq_stepIn] at h
  have hinv' := stepIn_keeps_inv hinv h
  have ⟨_, _, _, _, hic, _⟩ := hinv'
  exact ⟨hinv', hic⟩

/-- Settles O2: the empty list is canonical, and 0 is below every bound. -/
theorem resetMeetsTheInvariant : Obligations.ResetMeetsTheInvariant := by
  unfold Obligations.ResetMeetsTheInvariant
  exact fun c => ⟨rfl, rfl, rfl, rfl, Nat.zero_le _, stackFits_eq_true.mpr fun depth _ => Nat.zero_le depth⟩

/-- R172: the array of an image is canonical and lists no address outside the image. -/
theorem Memory.ofBytes_image {n : Nat} {image : List Byte} (hlen : image.length = n) :
    (Memory.ofBytes 0 image).wf = true ∧ Memory.within n (Memory.ofBytes 0 image) = true :=
  ⟨Memory.wfFrom_ofBytes 0 image, Memory.within_ofBytes n 0 image (by omega)⟩

/-- Settles O46: Step by its effect; the loads by the array of an image; CopyRomToRam hands RAM what held of ROM. -/
theorem everyHostOperationKeepsTheInvariant : Obligations.EveryHostOperationKeepsTheInvariant := by
  unfold Obligations.EveryHostOperationKeepsTheInvariant
  intro c op r s t hinv h
  have ⟨hram, hramIn, hrom, hromIn, hic, hfits⟩ := hinv
  cases op with
  | reset =>
    cases h
    exact resetMeetsTheInvariant c
  | loadRam image =>
    obtain ⟨hlen, rfl⟩ := state_of_hostOpIn_loadRam h
    obtain ⟨hwf, hwithin⟩ := Memory.ofBytes_image hlen
    exact ⟨hwf, hwithin, hrom, hromIn, hic, hfits⟩
  | loadRom image =>
    obtain ⟨hlen, rfl⟩ := state_of_hostOpIn_loadRom h
    obtain ⟨hwf, hwithin⟩ := Memory.ofBytes_image hlen
    exact ⟨hram, hramIn, hwf, hwithin, hic, hfits⟩
  | copyRomToRam =>
    cases h
    exact ⟨hrom, hromIn, hrom, hromIn, hic, hfits⟩
  | step =>
    rcases state_of_hostOpIn_step h with hnext | rfl
    · exact stepIn_keeps_inv hinv hnext
    · exact hinv
  | observe =>
    cases h
    exact hinv

end Sys2Proof.Machine

/-! ### How each field moves

Each statement about one field of the state is its value in the nine cases of `StepEffect`. -/

namespace Sys2Proof.Machine

/-! #### Memory (R57) -/

/-- Settles O40: no effect of a step writes memory; of the other operations each leaves what its definition leaves. -/
theorem noInstructionWritesMemory : Obligations.NoInstructionWritesMemory := by
  unfold Obligations.NoInstructionWritesMemory
  refine ⟨fun s t h a => ?reads, fun op s t r h => ?operations⟩
  case reads =>
    have heffect := step_effect h
    rw [heffect.ram_eq, heffect.rom_eq]
    exact ⟨rfl, rfl⟩
  case operations =>
    cases op with
    | reset => exact ⟨fun _ => .inl rfl, fun _ => .inl rfl⟩
    | loadRam image =>
      obtain ⟨-, rfl⟩ := state_of_hostOpIn_loadRam h
      exact ⟨fun _ => .inr (.inr ⟨image, rfl⟩), fun hrom => absurd rfl hrom⟩
    | loadRom image =>
      obtain ⟨-, rfl⟩ := state_of_hostOpIn_loadRom h
      exact ⟨fun hram => absurd rfl hram, fun _ => .inr ⟨image, rfl⟩⟩
    | copyRomToRam =>
      cases h
      exact ⟨fun _ => .inr (.inl rfl), fun hrom => absurd rfl hrom⟩
    | step =>
      obtain ⟨hram, hrom⟩ := memories_of_hostOpIn_step h
      exact ⟨fun hne => absurd hram hne, fun hne => absurd hrom hne⟩
    | observe =>
      cases h
      exact ⟨fun hram => absurd rfl hram, fun hrom => absurd rfl hrom⟩

/-! #### Registers (R21, R22) -/

/-- Settles O41: of the nine effects only that of MOV writes B, and only those of arithmetic and MOV write A. -/
theorem registersAreWrittenOnlyByTheirWriters : Obligations.RegistersAreWrittenOnlyByTheirWriters := by
  unfold Obligations.RegistersAreWrittenOnlyByTheirWriters
  intro s t h
  cases step_effect h with
  | halt | jmp | taken | notTaken | push | pop | print =>
    exact ⟨fun hB => absurd rfl hB, fun hA => absurd rfl hA⟩
  | arith v hop =>
    refine ⟨fun hB => absurd rfl hB, fun _ => .inl ?_⟩
    rcases hop with hop | hop | hop | hop <;> simp [hop]
  | mov d r hop hd =>
    rcases selReg_eq_some.mp hd with ⟨hsel, rfl⟩ | ⟨hsel, rfl⟩
    · refine ⟨fun hB => absurd rfl hB, fun hA => .inr ⟨hop, hsel, ?_⟩⟩
      cases r with
      | a => exact absurd rfl hA
      | b => rfl
    · refine ⟨fun hB => ⟨hop, hsel, ?_⟩, fun hA => absurd rfl hA⟩
      cases r with
      | a => rfl
      | b => exact absurd rfl hB

/-! #### STACK and OUT (R29, R33, R163) -/

/-- R115: the number of the register is the selector byte itself. -/
theorem toNat_eq_id_of_selReg {sel : Byte} {r : Reg} (hsel : selReg sel = some r) : sel.toNat = r.id := by
  rcases selReg_eq_some.mp hsel with ⟨rfl, rfl⟩ | ⟨rfl, rfl⟩
  · rfl
  · rfl

/-- Settles O42: PUSH, POP and PRINT are the effects that touch STACK or OUT, and the opcode byte tells them apart. -/
theorem stackAndOutputChangeOnlyByTheirInstructions : Obligations.StackAndOutputChangeOnlyByTheirInstructions := by
  unfold Obligations.StackAndOutputChangeOnlyByTheirInstructions
  intro s t h
  cases step_effect h with
  | halt hop => simp [hop]
  | arith v hop => rcases hop with hop | hop | hop | hop <;> simp [hop]
  | jmp hop => simp [hop]
  | taken own hop => cases own <;> simp [hop, Reg.jumpOpcode]
  | notTaken own hop => cases own <;> simp [hop, Reg.jumpOpcode]
  | push hop => simp [hop]
  | pop hop => simp [hop]
  | mov d r hop => simp [hop]
  | print r hop hr => simp [hop, toNat_eq_id_of_selReg hr]

/-! #### IC (R26, R145) -/

/-- How a completed step leaves IC: the table of R26. -/
theorem step_ic {s t : State} (h : step s = .next t) :
    t.ic =
      if s.ram.read s.ic = 0x00 then s.ic
      else if s.ram.read s.ic = 0x05 then (s.ram.read (s.ram.read (s.ic + 2)).toNat).toNat
      else if s.ram.read s.ic = 0x06 ∧ s.regA = 0 ∨ s.ram.read s.ic = 0x07 ∧ s.regB = 0 then
        (s.ram.read (s.ram.read (s.ic + 3)).toNat).toNat
      else if s.ram.read s.ic = 0x09 ∨ s.ram.read s.ic = 0x0B then s.ic + 2
      else s.ic + 3 := by
  cases step_effect h with
  | halt hop => simp [hop]
  | arith v hop => rcases hop with hop | hop | hop | hop <;> simp [hop]
  | jmp hop => simp [hop]
  | taken own hop hzero =>
    cases own with
    | a => simp [show s.ram.read s.ic = 0x06 from hop, show s.regA = 0 from hzero]
    | b => simp [show s.ram.read s.ic = 0x07 from hop, show s.regB = 0 from hzero]
  | notTaken own hop hzero =>
    cases own with
    | a => simp [show s.ram.read s.ic = 0x06 from hop, show s.regA ≠ 0#8 from hzero]
    | b => simp [show s.ram.read s.ic = 0x07 from hop, show s.regB ≠ 0#8 from hzero]
  | push hop => simp [hop]
  | pop hop => simp [hop]
  | mov d r hop => simp [hop]
  | print r hop => simp [hop]

/-- Settles O43: the table is `step_ic`; a HALT byte makes the step the one of `step_of_halt_opcode`; a fault leaves the
state. -/
theorem instructionPointerAfterEveryStep : Obligations.InstructionPointerAfterEveryStep := by
  unfold Obligations.InstructionPointerAfterEveryStep
  refine ⟨fun s t => step_ic, fun s t h hop => ?halts, fun s t f h => ?faults⟩
  case halts =>
    obtain ⟨-, hic, -⟩ := step_next_iff.mp h
    obtain rfl := Host.Outcome.next.inj ((step_of_halt_opcode hic hop).symm.trans h)
    rfl
  case faults => rw [state_eq_of_stepResultIn_fault h]

/-- Settles O21: in the table of R26 a taken jump leaves IC at the value of a byte. -/
theorem takenJumpsReachOnlyTheFirstPage : Obligations.TakenJumpsReachOnlyTheFirstPage := by
  unfold Obligations.TakenJumpsReachOnlyTheFirstPage
  intro s t h hjump
  have byte_le (b : Byte) : b.toNat ≤ 255 := Nat.le_of_lt_succ b.isLt
  rw [step_ic h]
  rcases hjump with hop | ⟨hop, hzero⟩ | ⟨hop, hzero⟩
  · simpa [hop] using byte_le _
  · simpa [hop, hzero] using byte_le _
  · simpa [hop, hzero] using byte_le _

end Sys2Proof.Machine

/-! ### The six items determine all behaviour (R20, R34)

OUT and `report` are the two fields outside the six items. A rule writes `report` without reading it, and appends to
OUT without reading it. So a step is that of the state's core, where both are blank, with the old OUT put before the
new: the result, the fault and the event are read off the core alone. -/

namespace Sys2Proof.Machine

/-! #### OUT and report play no part in a rule -/

/-- The state with events put before those of its OUT. -/
def State.withEarlierOut (s : State) (o : List OutEvent) : State := { s with out := o ++ s.out }

/-- The state with events put before those of its OUT, and another report. -/
def State.withHistory (s : State) (o : List OutEvent) (q : Report) : State :=
  { s with out := o ++ s.out, report := q }

/-- The state with nothing in it but the six items of R20. -/
def State.core (s : State) : State := { s with out := [], report := .noStep }

theorem State.core_withHistory (s : State) : s.core.withHistory s.out s.report = s := by
  simp [State.core, State.withHistory]

theorem State.core_eq_of_sameCore {s s' : State} (h : s.SameCore s') : s.core = s'.core := by
  obtain ⟨hA, hB, hic, hstack, hram, hrom⟩ := h
  simp [State.core, hA, hB, hic, hstack, hram, hrom]

section
variable (c : Config) (s : State) (o : List OutEvent) (q : Report)

theorem State.withHistory_reg (r : Reg) : (s.withHistory o q).reg r = s.reg r := by cases r <;> rfl

theorem State.withHistory_setReg (r : Reg) (v : Byte) :
    (s.withHistory o q).setReg r v = (s.setReg r v).withHistory o q := by
  cases r <;> rfl

theorem State.withHistory_emit (r : Reg) : (s.withHistory o q).emit r = (s.emit r).withHistory o q := by
  rw [State.emit, State.withHistory_reg]
  simp [State.emit, State.withHistory]

theorem State.withHistory_isZero (r : Reg) : (s.withHistory o q).isZero r = s.isZero r :=
  congrArg (·.toNat == 0) (s.withHistory_reg o q r)

/-! Every rule ends in a new report, and what OUT held stays before what the rule adds. `map_bind` moves that past the
reads, and then the two sides agree by definition. -/

theorem RunsArith.ruleIn_withHistory {i : Byte → Byte → Instr} {f : Byte → Byte → Except Fault Byte}
    (hi : RunsArith i f) (sel imm : Byte) :
    ruleIn c (i sel imm) (s.withHistory o q) = (·.withEarlierOut o) <$> ruleIn c (i sel imm) s := by
  rw [hi, hi]
  simp only [arith, map_bind, State.withHistory_reg, State.withHistory_setReg]
  rfl

theorem RunsJumpIfZero.ruleIn_withHistory {i : Byte → Byte → Byte → Instr} {own : Reg} (hi : RunsJumpIfZero i own)
    (sel ign ptr : Byte) :
    ruleIn c (i sel ign ptr) (s.withHistory o q) = (·.withEarlierOut o) <$> ruleIn c (i sel ign ptr) s := by
  rw [hi, hi]
  simp only [jumpIfZero, map_bind, State.withHistory_isZero]
  cases s.isZero own with
  | true =>
    simp only [if_true, map_bind]
    rfl
  | false => rfl

/-- R33, R117: a rule reads nothing of OUT and nothing of the result of the step before. -/
theorem ruleIn_withHistory (i : Instr) :
    ruleIn c i (s.withHistory o q) = (·.withEarlierOut o) <$> ruleIn c i s := by
  cases i with
  | halt => rfl
  | add sel imm => exact add_runsArith.ruleIn_withHistory c s o q sel imm
  | sub sel imm => exact sub_runsArith.ruleIn_withHistory c s o q sel imm
  | mult sel imm => exact mult_runsArith.ruleIn_withHistory c s o q sel imm
  | div sel imm => exact div_runsArith.ruleIn_withHistory c s o q sel imm
  | jmp ign ptr =>
    simp only [ruleIn, jmpIn, map_bind]
    rfl
  | jmpIfA sel ign ptr => exact jmpIfA_runsJumpIfZero.ruleIn_withHistory c s o q sel ign ptr
  | jmpIfB sel ign ptr => exact jmpIfB_runsJumpIfZero.ruleIn_withHistory c s o q sel ign ptr
  | push ign imm =>
    simp only [ruleIn, pushIn, map_bind]
    rfl
  | pop ign =>
    simp only [ruleIn, popIn, map_bind]
    rfl
  | mov dsel ssel =>
    simp only [ruleIn, movIn, map_bind, State.withHistory_reg, State.withHistory_setReg]
    rfl
  | print sel =>
    simp only [ruleIn, printIn, map_bind, State.withHistory_emit]
    rfl

theorem stepIn_withHistory_of_next {c : Config} {s t : State} (h : stepIn c s = .next t) :
    stepIn c (s.withHistory o q) = .next (t.withEarlierOut o) := by
  obtain ⟨i, hic, hdecode, hrule⟩ := stepIn_eq_next.mp h
  exact stepIn_eq_next.mpr ⟨i, hic, hdecode, by rw [ruleIn_withHistory, hrule]; rfl⟩

theorem stepIn_withHistory_of_fault {c : Config} {s : State} {f : Fault} (h : stepIn c s = .fault f) :
    stepIn c (s.withHistory o q) = .fault f := by
  rcases stepIn_eq_fault.mp h with hfetch | ⟨i, hic, hdecode, hrule⟩
  · exact stepIn_eq_fault.mpr (.inl hfetch)
  · exact stepIn_eq_fault.mpr (.inr ⟨i, hic, hdecode, by rw [ruleIn_withHistory, hrule]; rfl⟩)

end

/-! #### Operations on states with the same core -/

/-- The two operations, or runs of operations, give the same reply and agree on the six items after it, or are refused
alike. -/
def AnswerAlike {α : Type} (x x' : Except Refusal (α × State)) : Prop :=
  (∃ r t t', x = .ok (r, t) ∧ x' = .ok (r, t') ∧ t.SameCore t') ∨ ∃ e, x = .error e ∧ x' = .error e

/-- R177: the event that a step hands the sink is the one it adds, whatever OUT held. -/
theorem newEvent_withHistory (s t : State) (q : Report) (o : List OutEvent) :
    newEvent (s.core.withHistory o q) (t.withEarlierOut o) = t.out.head? := by
  simp [newEvent, State.core, State.withHistory, State.withEarlierOut]

section
variable {c : Config} {s : State}

/-- The host Step of a state is that of its core. -/
theorem hostOpIn_step_of_core_next {t : State} (h : stepIn c s.core = .next t) :
    hostOpIn c .step s = .ok (.stepped (resultOf t) t.out.head?, t.withEarlierOut s.out) := by
  have hstep := hostOpIn_step_of_next (stepIn_withHistory_of_next s.out s.report h)
  rwa [newEvent_withHistory, State.core_withHistory] at hstep

theorem hostOpIn_step_of_core_fault {f : Fault} (h : stepIn c s.core = .fault f) :
    hostOpIn c .step s = .ok (.stepped (.fault f) none, s) := by
  have hstep := stepIn_withHistory_of_fault s.out s.report h
  rw [State.core_withHistory] at hstep
  exact hostOpIn_step_of_fault hstep

end

section
variable {c : Config} {s s' : State}

theorem hostOpIn_step_sameCore (h : s.SameCore s') : AnswerAlike (hostOpIn c .step s) (hostOpIn c .step s') := by
  have hcore := State.core_eq_of_sameCore h
  rcases stepIn_next_or_fault c s.core with ⟨t, hnext⟩ | ⟨f, hfault⟩
  · have hs' := hostOpIn_step_of_core_next (hcore ▸ hnext)
    exact .inl ⟨_, _, _, hostOpIn_step_of_core_next hnext, hs', rfl, rfl, rfl, rfl, rfl, rfl⟩
  · have hs' := hostOpIn_step_of_core_fault (hcore ▸ hfault)
    exact .inl ⟨_, _, _, hostOpIn_step_of_core_fault hfault, hs', h⟩

/-- R34: one operation on two states that agree on the six items. -/
theorem hostOpIn_sameCore (op : HostOp) (h : s.SameCore s') : AnswerAlike (hostOpIn c op s) (hostOpIn c op s') := by
  have ⟨hA, hB, hic, hstack, hram, hrom⟩ := h
  cases op with
  | reset => exact .inl ⟨_, _, _, rfl, rfl, rfl, rfl, rfl, rfl, rfl, rfl⟩
  | loadRam image =>
    by_cases hlen : image.length = c.memSize
    · exact .inl ⟨_, _, _, hostOpIn_loadRam_of_length s hlen, hostOpIn_loadRam_of_length s' hlen,
        hA, hB, hic, hstack, rfl, hrom⟩
    · exact .inr ⟨_, hostOpIn_loadRam_of_wrong_length s hlen, hostOpIn_loadRam_of_wrong_length s' hlen⟩
  | loadRom image =>
    by_cases hlen : image.length = c.memSize
    · exact .inl ⟨_, _, _, hostOpIn_loadRom_of_length s hlen, hostOpIn_loadRom_of_length s' hlen,
        hA, hB, hic, hstack, hram, rfl⟩
    · exact .inr ⟨_, hostOpIn_loadRom_of_wrong_length s hlen, hostOpIn_loadRom_of_wrong_length s' hlen⟩
  | copyRomToRam => exact .inl ⟨_, _, _, rfl, rfl, hA, hB, hic, hstack, hrom, hrom⟩
  | step => exact hostOpIn_step_sameCore h
  | observe =>
    have hobserved : s.observation = s'.observation := by simp [State.observation, hA, hB, hic, hstack]
    refine .inl ⟨.observed s.observation, s, s', rfl, ?_, h⟩
    rw [hobserved]
    rfl

end

/-- A run whose first operation is refused is refused. -/
theorem hostRunIn_cons_of_refused {c : Config} {op : HostOp} {s : State} {e : Refusal} (ops : List HostOp)
    (h : hostOpIn c op s = .error e) : hostRunIn c (op :: ops) s = .error e := by
  rw [hostRunIn, h]
  rfl

/-- A run is refused where the run after its first operation is. -/
theorem hostRunIn_cons_of_rest_refused {c : Config} {op : HostOp} {ops : List HostOp} {s t : State} {r : HostReply}
    {e : Refusal} (h : hostOpIn c op s = .ok (r, t)) (hs : hostRunIn c ops t = .error e) :
    hostRunIn c (op :: ops) s = .error e := by
  rw [hostRunIn, h]
  show (hostRunIn c ops t >>= _) = _
  rw [hs]
  rfl

/-- R34: any sequence of operations, by induction on it. -/
theorem hostRunIn_sameCore (c : Config) (ops : List HostOp) : ∀ {s s' : State}, s.SameCore s' →
    AnswerAlike (hostRunIn c ops s) (hostRunIn c ops s') := by
  induction ops with
  | nil => exact fun h => .inl ⟨[], _, _, rfl, rfl, h⟩
  | cons op ops ih =>
    intro s s' h
    rcases hostOpIn_sameCore op h with ⟨r, t, t', hs, hs', ht⟩ | ⟨e, hs, hs'⟩
    · rcases ih ht with ⟨rs, u, u', hrun, hrun', hu⟩ | ⟨e, hrun, hrun'⟩
      · exact .inl ⟨r :: rs, u, u', hostRunIn_cons hs hrun, hostRunIn_cons hs' hrun', hu⟩
      · exact .inr ⟨e, hostRunIn_cons_of_rest_refused hs hrun, hostRunIn_cons_of_rest_refused hs' hrun'⟩
    · exact .inr ⟨e, hostRunIn_cons_of_refused ops hs, hostRunIn_cons_of_refused ops hs'⟩

/-- Settles O47: the two runs answer alike, operation by operation. -/
theorem sixItemsDetermineAllBehaviour : Obligations.SixItemsDetermineAllBehaviour := by
  unfold Obligations.SixItemsDetermineAllBehaviour
  intro c ops s s' h
  rcases hostRunIn_sameCore c ops h with ⟨rs, t, t', hs, hs', ht⟩ | ⟨e, hs, hs'⟩
  · refine ⟨fun rs₁ t₁ h₁ => ?_, fun e h₁ => ?_⟩
    · rw [hs] at h₁
      cases h₁
      exact ⟨t', hs', ht⟩
    · rw [hs] at h₁
      cases h₁
  · refine ⟨fun rs₁ t₁ h₁ => ?_, fun e₁ h₁ => ?_⟩
    · rw [hs] at h₁
      cases h₁
    · rw [hs] at h₁
      cases h₁
      exact hs'

end Sys2Proof.Machine

/-! ### The result of a step (R110, R116, R117, R175)

A step completes or faults and is never refused. A fault leaves the state; of the completed steps only HALT reports
Halted, and it writes nothing but that report. So both find the same bytes at the same IC again. -/

namespace Sys2Proof.Machine

/-- Settles O39: each arm of the dispatch is the configured rule at this hardware's parameters. -/
theorem configuredMachineAtHardwareIsTheMachine : Obligations.ConfiguredMachineAtHardwareIsTheMachine := by
  unfold Obligations.ConfiguredMachineAtHardwareIsTheMachine
  exact ⟨fun i s => (exec_eq_execIn i s).symm, fun s => (step_eq_stepIn s).symm⟩

/-- R116: a step of this hardware completes or faults. -/
theorem step_next_or_fault (s : State) : (∃ t, step s = .next t) ∨ ∃ f, step s = .fault f := by
  rw [step_eq_stepIn]
  exact stepIn_next_or_fault Config.hardware s

/-- Settles O38: a step completes or faults, and then does so with any other ROM. -/
theorem stepIsTotalAndIgnoresRom : Obligations.StepIsTotalAndIgnoresRom := by
  unfold Obligations.StepIsTotalAndIgnoresRom
  intro s m
  rcases step_next_or_fault s with ⟨t, hnext⟩ | ⟨f, hfault⟩
  · exact .inl ⟨t, hnext, step_withRom_of_next m hnext⟩
  · exact .inr ⟨f, hfault, step_withRom_of_fault m hfault⟩

/-! #### Halted and faulted steps repeat -/

section
variable {c : Config} {s : State}

/-- R164: a step at a HALT byte, at any value of the parameters. -/
theorem stepIn_of_halt_opcode (hic : s.ic < c.memSize) (hop : s.ram.read s.ic = 0x00) :
    stepIn c s = .next (s.setReport .halted) :=
  stepIn_eq_next.mpr ⟨.halt, hic, decode_fetchWindow_of_halt_opcode hop, rfl⟩

/-- R164: what the host is told of a step at a HALT byte. -/
theorem stepResultIn_of_halt_opcode (hic : s.ic < c.memSize) (hop : s.ram.read s.ic = 0x00) :
    stepResultIn c s = .ok (.halted, s.setReport .halted) :=
  stepResultIn_of_next (stepIn_of_halt_opcode hic hop)

end

theorem resultOf_eq_ok_or_halted (t : State) : resultOf t = .ok ∨ t.report = .halted := by
  unfold resultOf
  split
  · next h => exact .inr h
  · exact .inl rfl

/-- Settles O37: a step that halts is that of a HALT byte, which is still at IC after it; a fault leaves the state. -/
theorem haltedAndFaultedStepsChangeNothingAndRepeat : Obligations.HaltedAndFaultedStepsChangeNothingAndRepeat := by
  unfold Obligations.HaltedAndFaultedStepsChangeNothingAndRepeat
  intro c s t r h hr
  rcases stepResultIn_eq_ok.mp h with ⟨hnext, rfl⟩ | ⟨f, -, -, rfl⟩
  · obtain ⟨hic, heffect⟩ := stepIn_effect hnext
    obtain ⟨hop, rfl⟩ := heffect.of_halted ((resultOf_eq_ok_or_halted t).resolve_left hr)
    exact ⟨⟨rfl, rfl, rfl, rfl, rfl, rfl⟩, rfl,
      stepResultIn_of_halt_opcode (s := s.setReport .halted) hic hop⟩
  · exact ⟨⟨rfl, rfl, rfl, rfl, rfl, rfl⟩, rfl, h⟩

/-! #### What Step answers the host -/

/-- Settles O52: OUT gains at most one event in any effect, and the host is handed that one. -/
theorem stepAnswersItsResultAndItsEvent : Obligations.StepAnswersItsResultAndItsEvent := by
  unfold Obligations.StepAnswersItsResultAndItsEvent
  intro s
  refine ⟨fun t h => ?completes, fun f h => ?faults⟩
  case completes =>
    obtain ⟨ev, hout⟩ := (step_effect h).out_eq
    have hop := hostOpIn_step_of_next ((step_eq_stepIn s).symm.trans h)
    rw [newEvent_eq hout] at hop
    exact ⟨ev, hout, hop⟩
  case faults => exact hostOpIn_step_of_fault ((step_eq_stepIn s).symm.trans h)

/-- Settles O36: the codes are the definition's. -/
theorem faultCodesAreTheListedOnes : Obligations.FaultCodesAreTheListedOnes := by
  unfold Obligations.FaultCodesAreTheListedOnes
  exact fun n r b => ⟨rfl, rfl, rfl, rfl, rfl, rfl, rfl, rfl⟩

/-! ### Loading and booting (R172, R212 to R214) -/

/-- Settles O54: both loads test the length first. -/
theorem imagesOfAnotherLengthAreRefused : Obligations.ImagesOfAnotherLengthAreRefused := by
  unfold Obligations.ImagesOfAnotherLengthAreRefused
  exact fun s image hlen => ⟨hostOpIn_loadRam_of_wrong_length s hlen, hostOpIn_loadRom_of_wrong_length s hlen⟩

/-- R164, R177: a host Step at a HALT byte answers Halted, hands over no event, and leaves the HALT byte at IC. -/
theorem hostOpIn_step_of_halt_opcode {c : Config} {s : State} (hic : s.ic < c.memSize)
    (hop : s.ram.read s.ic = 0x00) :
    hostOpIn c .step s = .ok (.stepped .halted none, s.setReport .halted) := by
  have hstep := hostOpIn_step_of_next (stepIn_of_halt_opcode hic hop)
  rwa [newEvent_eq (ev := none) (by simp)] at hstep

/-- R117: any number of host Steps at a HALT byte, by induction on how many. -/
theorem hostRunIn_steps_of_halt_opcode {c : Config} (k : Nat) : ∀ {s : State}, s.ic < c.memSize →
    s.ram.read s.ic = 0x00 →
    ∃ t, hostRunIn c (List.replicate k .step) s = .ok (List.replicate k (.stepped .halted none), t) := by
  induction k with
  | zero => exact fun _ _ => ⟨_, rfl⟩
  | succ k ih =>
    intro s hic hop
    obtain ⟨t, hrun⟩ := ih (s := s.setReport .halted) hic hop
    exact ⟨t, hostRunIn_cons (hostOpIn_step_of_halt_opcode hic hop) hrun⟩

theorem hostRunIn_nil (c : Config) (s : State) : hostRunIn c [] s = .ok ([], s) := rfl

/-- Settles O53: both boots put the image's array into RAM; with LoadROM alone RAM keeps the HALT bytes of Reset. -/
theorem bothBootSequencesLoadTheImage : Obligations.BothBootSequencesLoadTheImage := by
  unfold Obligations.BothBootSequencesLoadTheImage
  intro s image hlen
  have hreset : hostOpIn Config.hardware .reset s = .ok (.done, State.reset) := rfl
  have hcopy (u : State) : hostOpIn Config.hardware .copyRomToRam u = .ok (.done, u.copyRomToRam) := rfl
  have hram := hostOpIn_loadRam_of_length (c := Config.hardware) State.reset hlen
  have hrom := hostOpIn_loadRom_of_length (c := Config.hardware) State.reset hlen
  refine ⟨⟨_, _, hostRunIn_cons hreset (hostRunIn_cons hram (hostRunIn_nil _ _)),
    hostRunIn_cons hreset (hostRunIn_cons hrom (hostRunIn_cons (hcopy _) (hostRunIn_nil _ _))),
    rfl, rfl, rfl, rfl, rfl, fun _ => Memory.read_ofBytes_zero⟩, fun k => ?halts⟩
  case halts =>
    have hic : 0 < Config.hardware.memSize := by simp
    obtain ⟨t, hrun⟩ :=
      hostRunIn_steps_of_halt_opcode k (s := State.reset.withRom (Memory.ofBytes 0 image)) hic rfl
    exact ⟨t, hostRunIn_cons hreset (hostRunIn_cons hrom hrun)⟩

/-! ### How a run ends (R222)

More fuel does not change how a run has ended, so two ends of one run are the same, and a run without an end is one that
every amount of fuel leaves running. -/

section
variable {s : State}

theorem runFor_succ_of_ok {n : Nat} {t : State} (h : step s = .next t) (hreport : t.report ≠ .halted) :
    runFor (n + 1) s = runFor n t := by
  rw [runFor, h]
  exact if_neg hreport

/-- R116: a run is never refused. -/
theorem runFor_ne_refused (n : Nat) (r : Refusal) : ∀ s : State, runFor n s ≠ .refused r := by
  induction n with
  | zero => exact fun s => nofun
  | succ n ih =>
    intro s
    rw [runFor]
    rcases step_next_or_fault s with ⟨t, hnext⟩ | ⟨f, hfault⟩
    · rw [hnext]
      dsimp only
      split
      · exact nofun
      · exact ih t
    · rw [hfault]
      exact nofun

/-- A run that has ended stays as it ended, whatever fuel is added. -/
theorem runFor_add {n : Nat} (k : Nat) : ∀ {s : State}, (∀ t, runFor n s ≠ .running t) →
    runFor (n + k) s = runFor n s := by
  induction n with
  | zero => exact fun {s} h => absurd rfl (h s)
  | succ n ih =>
    intro s h
    rw [Nat.add_right_comm, runFor, runFor]
    rcases step_next_or_fault s with ⟨t, hnext⟩ | ⟨f, hfault⟩
    · rw [hnext]
      dsimp only
      split
      · rfl
      · next hreport =>
        refine ih fun u hu => h u ?_
        rw [runFor_succ_of_ok hnext hreport, hu]
    · rw [hfault]

/-- Two amounts of fuel that both bring the run to an end bring it to the same end. -/
theorem runFor_end_unique {m n : Nat} (hm : ∀ t, runFor m s ≠ .running t) (hn : ∀ t, runFor n s ≠ .running t) :
    runFor m s = runFor n s := by
  rw [← runFor_add n hm, ← runFor_add m hn, Nat.add_comm]

theorem not_halts_and_faults : ¬ (HaltsNormally s ∧ RunFaults s) := by
  rintro ⟨⟨m, t, hm⟩, ⟨n, f, u, hn⟩⟩
  have hend := runFor_end_unique (s := s) (m := m) (n := n) (by simp [hm]) (by simp [hn])
  rw [hm, hn] at hend
  cases hend

theorem HaltsNormally.not_diverges (h : HaltsNormally s) : ¬ Diverges s := by
  obtain ⟨n, t, hn⟩ := h
  intro hdiverges
  obtain ⟨u, hu⟩ := hdiverges n
  cases hn.symm.trans hu

theorem RunFaults.not_diverges (h : RunFaults s) : ¬ Diverges s := by
  obtain ⟨n, f, t, hn⟩ := h
  intro hdiverges
  obtain ⟨u, hu⟩ := hdiverges n
  cases hn.symm.trans hu

/-- A run that does not diverge has an end, which is one of the two that a step can give. -/
theorem halts_or_faults_of_not_diverges (h : ¬ Diverges s) : HaltsNormally s ∨ RunFaults s := by
  obtain ⟨n, hn⟩ := not_forall.mp h
  cases hend : runFor n s with
  | halted t => exact .inl ⟨n, t, hend⟩
  | faulted f t => exact .inr ⟨n, f, t, hend⟩
  | running t => exact absurd ⟨t, hend⟩ hn
  | refused r => exact absurd hend (runFor_ne_refused n r s)

end

/-- Settles O48: an end is unique, a run without an end diverges, and an end is Halted or a fault. -/
theorem everyRunEndsInExactlyOneWay : Obligations.EveryRunEndsInExactlyOneWay := by
  unfold Obligations.EveryRunEndsInExactlyOneWay
  intro s
  refine ⟨?someWay, not_halts_and_faults, fun ⟨h, hdiverges⟩ => h.not_diverges hdiverges,
    fun ⟨h, hdiverges⟩ => h.not_diverges hdiverges⟩
  case someWay =>
    by_cases hdiverges : Diverges s
    · exact .inr (.inr hdiverges)
    · exact (halts_or_faults_of_not_diverges hdiverges).imp id .inl

end Sys2Proof.Machine

/-! ### Jumps and STACK in terms of each other (R91, R153)

Each statement here runs the same rule twice, or two rules side by side, and cites what was proved of each. -/

namespace Sys2Proof.Machine

/-! #### The shared byte of the conditional jumps (R91) -/

section
variable {s : State}

/-- Format SXP (R83) of JMP_IF_A. -/
theorem decode_fetchWindow_of_jmpIfA_opcode (hop : s.ram.read s.ic = 0x06) :
    decode (fetchWindow s) =
      .ok (.jmpIfA (s.ram.read (s.ic + 1)) (s.ram.read (s.ic + 2)) (s.ram.read (s.ic + 3))) := by
  rw [fetchWindow_eq, hop]
  rfl

/-- Format SXP (R83) of JMP_IF_B. -/
theorem decode_fetchWindow_of_jmpIfB_opcode (hop : s.ram.read s.ic = 0x07) :
    decode (fetchWindow s) =
      .ok (.jmpIfB (s.ram.read (s.ic + 1)) (s.ram.read (s.ic + 2)) (s.ram.read (s.ic + 3))) := by
  rw [fetchWindow_eq, hop]
  rfl

/-- R91: the last byte of a conditional jump is its pointer when taken and the byte at the next IC when not. -/
theorem RunsJumpIfZero.step_shares_last_byte {i : Byte → Byte → Byte → Instr} {own : Reg} {sel ign : Byte}
    (hi : RunsJumpIfZero i own) (hin : s.ic + 3 < 65535) (hsel : selReg sel = some own)
    (hdecode : decode (fetchWindow s) = .ok (i sel ign (s.ram.read (s.ic + 3)))) :
    (s.reg own = 0 →
      step s = .next { s with ic := (s.ram.read (s.ram.read (s.ic + 3)).toNat).toNat, report := .ok }) ∧
    (s.reg own ≠ 0 →
      ∃ t, step s = .next t ∧ t = { s with ic := s.ic + 3, report := .ok } ∧
        (fetchWindow t).head? = some (s.ram.read (s.ic + 3))) := by
  rw [step_of_decode (by omega) hdecode]
  exact ⟨hi.exec_taken hsel hin, fun hreg => ⟨_, hi.exec_not_taken hsel (by omega) hreg, rfl, rfl⟩⟩

end

/-- Settles O19: the two conditional jumps run the one rule, each with its own selector. -/
theorem conditionalJumpSharesItsLastByte : Obligations.ConditionalJumpSharesItsLastByte := by
  unfold Obligations.ConditionalJumpSharesItsLastByte
  rintro s r hin (⟨rfl, hop, hsel⟩ | ⟨rfl, hop, hsel⟩)
  · have hselA : selReg (s.ram.read (s.ic + 1)) = some .a := by rw [hsel, selReg_one]
    exact jmpIfA_runsJumpIfZero.step_shares_last_byte hin hselA (decode_fetchWindow_of_jmpIfA_opcode hop)
  · have hselB : selReg (s.ram.read (s.ic + 1)) = some .b := by rw [hsel, selReg_two]
    exact jmpIfB_runsJumpIfZero.step_shares_last_byte hin hselB (decode_fetchWindow_of_jmpIfB_opcode hop)

/-! #### A taken conditional jump and JMP -/

/-- R140, R142: a taken conditional jump is a JMP one address further on, with the pointer byte at the same address. -/
theorem RunsJumpIfZero.exec_taken_eq_jmp {i : Byte → Byte → Byte → Instr} {own : Reg} {s : State} {sel : Byte}
    (hi : RunsJumpIfZero i own) (hsel : selReg sel = some own) (haddr : s.ic + 1 < 65535) (hreg : s.reg own = 0)
    (ign ign' ptr : Byte) : exec (i sel ign ptr) s = exec (.jmp ign' ptr) { s with ic := s.ic + 1 } := by
  obtain ⟨-, hcompletes, hfaults⟩ := jmpGoesThroughMemory { s with ic := s.ic + 1 } ign' ptr
  by_cases hptr : s.ic + 3 < 65535
  · exact (hi.exec_taken hsel hptr hreg).trans (hcompletes hptr).symm
  · have hout : 65535 ≤ s.ic + 3 := Nat.le_of_not_lt hptr
    exact (hi.exec_pointer_outside_ram hsel haddr hout hreg).trans (hfaults hout).symm

/-- Settles O20: both conditional jumps, each with its own selector and register. -/
theorem takenConditionalJumpIsAJmp : Obligations.TakenConditionalJumpIsAJmp := by
  unfold Obligations.TakenConditionalJumpIsAJmp
  exact fun s ign ign' ptr haddr =>
    ⟨fun hA => jmpIfA_runsJumpIfZero.exec_taken_eq_jmp selReg_one haddr hA ign ign' ptr,
      fun hB => jmpIfB_runsJumpIfZero.exec_taken_eq_jmp selReg_two haddr hB ign ign' ptr⟩

/-! #### PUSH and POP (R153) -/

/-- Settles O24: PUSH leaves its byte on top of STACK, and POP takes the top off. -/
theorem pushThenPopRestoresTheStack : Obligations.PushThenPopRestoresTheStack := by
  unfold Obligations.PushThenPopRestoresTheStack
  intro s ign ign' v hin
  obtain ⟨-, -, -, -, hpush, -⟩ := pushAppendsTheImmediate Config.hardware s ign v
  exact ⟨_, hpush hin, rfl, exec_next_iff.mpr (completes_pop ign' rfl)⟩

end Sys2Proof.Machine

/-! ### The faults of each instruction (R191, R196) -/

namespace Sys2Proof.Machine

section
variable {s : State} {f : Fault}

/-- R141: on this hardware the indirection faults at the address of the pointer byte only. -/
theorem indirect_hardware_eq_error {q : Nat} {ptr : Byte} :
    indirect Config.hardware s q ptr = .error f ↔ 65535 ≤ q + 1 ∧ f = .addressOutOfRange (q + 1) := by
  have hptr := byte_lt_hardware_memSize ptr
  have htarget := byte_lt_hardware_memSize (s.ram.read ptr.toNat)
  rw [indirect_eq_error, hardware_memSize]
  rw [hardware_memSize] at hptr htarget
  constructor
  · rintro (hout | ⟨-, hout, -⟩ | ⟨-, -, hout, -⟩)
    · exact hout
    · omega
    · omega
  · exact .inl

/-- R139: the faults that the arithmetic instructions share, or the computation's own. -/
theorem RunsArith.exec_fault_cases {i : Byte → Byte → Instr} {g : Byte → Byte → Except Fault Byte} {sel imm : Byte}
    (hi : RunsArith i g) (h : exec (i sel imm) s = .fault f) :
    f = .invalidRegisterSelector (s.ic + 1) sel ∨ f = .addressOutOfRange (s.ic + 1) ∨
      f = .addressOutOfRange (s.ic + 2) ∨ ∃ x, g x imm = .error f := by
  rw [exec_eq_fault, hi, arith_eq_error] at h
  rcases h with ⟨-, hf⟩ | ⟨-, -, hf⟩ | ⟨-, -, -, -, hf⟩ | ⟨r, -, -, hg⟩
  · exact .inr (.inl hf)
  · exact .inl hf
  · exact .inr (.inr (.inl hf))
  · exact .inr (.inr (.inr ⟨_, hg⟩))

/-- R139: an arithmetic instruction whose computation cannot fault raises the shared faults only. -/
theorem RunsArith.exec_fault_cases_of_total {i : Byte → Byte → Instr} {g : Byte → Byte → Byte} {sel imm : Byte}
    (hi : RunsArith i fun x n => .ok (g x n)) (h : exec (i sel imm) s = .fault f) :
    f = .invalidRegisterSelector (s.ic + 1) sel ∨ f = .addressOutOfRange (s.ic + 1) ∨
      f = .addressOutOfRange (s.ic + 2) := by
  rcases hi.exec_fault_cases h with hf | hf | hf | ⟨x, hg⟩
  · exact .inl hf
  · exact .inr (.inl hf)
  · exact .inr (.inr hf)
  · cases hg

/-- R142, R143: the faults of a conditional jump; the pointer byte's address matters only to a jump that is taken. -/
theorem RunsJumpIfZero.exec_fault_cases {i : Byte → Byte → Byte → Instr} {own other : Reg} {sel ign ptr : Byte}
    (hi : RunsJumpIfZero i own) (hother : ∀ r, r ≠ own → r = other) (h : exec (i sel ign ptr) s = .fault f) :
    f = .invalidRegisterSelector (s.ic + 1) sel ∨ f = .registerSelectorMismatch (s.ic + 1) other ∨
      f = .addressOutOfRange (s.ic + 1) ∨ f = .addressOutOfRange (s.ic + 3) ∧ s.reg own = 0 := by
  rw [hi.exec_fault_iff, jumpIfZero_eq_error] at h
  rcases h with ⟨-, hf⟩ | ⟨-, -, hf⟩ | ⟨r, -, -, hne, hf⟩ | ⟨-, -, hzero, htarget⟩
  · exact .inr (.inr (.inl hf))
  · exact .inl hf
  · exact .inr (.inl (hother r hne ▸ hf))
  · obtain ⟨-, hf⟩ := indirect_hardware_eq_error.mp htarget
    exact .inr (.inr (.inr ⟨hf, State.isZero_eq_true.mp hzero⟩))

theorem exec_jmp_fault_iff {ign ptr : Byte} :
    exec (.jmp ign ptr) s = .fault f ↔ 65535 ≤ s.ic + 2 ∧ f = .addressOutOfRange (s.ic + 2) :=
  exec_eq_fault.trans ((jmpIn_eq_error (ign := ign)).trans indirect_hardware_eq_error)

/-- R150, R151: with STACK_DEPTH unbounded the immediate's address is all that PUSH can fault on. -/
theorem exec_push_fault {ign imm : Byte} (h : exec (.push ign imm) s = .fault f) :
    f = .addressOutOfRange (s.ic + 2) := by
  rcases (pushIn_eq_error (ign := ign)).mp (exec_eq_fault.mp h) with ⟨-, hf⟩ | ⟨-, hfull, -⟩
  · exact hf
  · cases hfull

theorem exec_pop_fault {ign : Byte} (h : exec (.pop ign) s = .fault f) : f = .stackUnderflow := by
  obtain ⟨-, hf⟩ := (popIn_eq_error (ign := ign)).mp (exec_eq_fault.mp h)
  exact hf

end

/-- Settles O29: the error cases of each rule, without their conditions. -/
theorem onlyTheListedFaultsAreRaised : Obligations.OnlyTheListedFaultsAreRaised := by
  unfold Obligations.OnlyTheListedFaultsAreRaised
  intro i s f h
  cases i with
  | halt => exact haltIn_ne_error s f (exec_eq_fault.mp h)
  | add sel imm => exact add_runsArith.exec_fault_cases_of_total h
  | sub sel imm => exact sub_runsArith.exec_fault_cases_of_total h
  | mult sel imm => exact mult_runsArith.exec_fault_cases_of_total h
  | div sel imm =>
    rcases div_runsArith.exec_fault_cases h with hf | hf | hf | ⟨x, hdivide⟩
    · exact .inl hf
    · exact .inr (.inr (.inl hf))
    · exact .inr (.inr (.inr hf))
    · obtain ⟨-, hf⟩ := divide_eq_error.mp hdivide
      exact .inr (.inl hf)
  | jmp ign ptr =>
    obtain ⟨-, hf⟩ := exec_jmp_fault_iff.mp h
    exact hf
  | jmpIfA sel ign ptr => exact jmpIfA_runsJumpIfZero.exec_fault_cases (by rintro (_ | _) <;> simp) h
  | jmpIfB sel ign ptr => exact jmpIfB_runsJumpIfZero.exec_fault_cases (by rintro (_ | _) <;> simp) h
  | push ign imm => exact exec_push_fault h
  | pop ign => exact exec_pop_fault h
  | mov dsel ssel =>
    rcases exec_mov_fault_iff.mp h with ⟨-, hf⟩ | ⟨-, -, hf⟩ | ⟨d, -, -, ⟨-, hf⟩ | ⟨-, -, hf⟩⟩
    · exact .inr (.inr (.inl hf))
    · exact .inl hf
    · exact .inr (.inr (.inr hf))
    · exact .inr (.inl hf)
  | print sel =>
    rcases exec_print_fault_iff.mp h with ⟨-, hf⟩ | ⟨-, -, hf⟩
    · exact .inr hf
    · exact .inl hf

/-! #### Where AddressOutOfRange comes from (R191) -/

/-- R84, R196: an address that an instruction finds out of range is that of one of its operand bytes. -/
theorem address_le_of_exec_fault {i : Instr} {s : State} {addr : Nat}
    (h : exec i s = .fault (.addressOutOfRange addr)) : addr ≤ s.ic + 3 := by
  have hlisted := onlyTheListedFaultsAreRaised i s _ h
  cases i with
  | halt => exact hlisted.elim
  | pop => cases hlisted
  | add | sub | mult | div | jmp | jmpIfA | jmpIfB | push | mov | print =>
    simp only [Fault.addressOutOfRange.injEq, reduceCtorEq, false_or] at hlisted
    omega

/-- R85: four bytes are enough for every format. -/
theorem decode_window_of_legal_opcode {opc : Byte} (hlegal : opc.toNat < 12) (x y z : Byte) :
    ∃ i, decode [opc, x, y, z] = .ok i := by
  rcases opcode_cases opc with
    rfl | rfl | rfl | rfl | rfl | rfl | rfl | rfl | rfl | rfl | rfl | rfl | hillegal
  any_goals exact ⟨_, rfl⟩
  omega

/-- R112, R193: the bytes at IC fail to decode on an illegal opcode only. -/
theorem decode_fetchWindow_error {s : State} {e : DecodeError} (h : decode (fetchWindow s) = .error e) :
    e = .invalidOpcode (s.ram.read s.ic) := by
  rw [fetchWindow_eq] at h
  rcases Nat.lt_or_ge (s.ram.read s.ic).toNat 12 with hlegal | hillegal
  · obtain ⟨i, hi⟩ := decode_window_of_legal_opcode hlegal (s.ram.read (s.ic + 1)) (s.ram.read (s.ic + 2))
      (s.ram.read (s.ic + 3))
    cases hi.symm.trans h
  · exact Except.error.inj (h.symm.trans (decode_of_illegal_opcode hillegal _))

/-- R111, R193: the fetch raises AddressOutOfRange for IC only. -/
theorem fetchInstr_addressOutOfRange {c : Config} {s : State} {addr : Nat}
    (h : fetchInstr c s = .error (.addressOutOfRange addr)) : c.memSize ≤ s.ic ∧ addr = s.ic := by
  rcases fetchInstr_eq_error.mp h with ⟨hout, hf⟩ | ⟨-, e, hdecode, hf⟩
  · exact ⟨hout, Fault.addressOutOfRange.inj hf⟩
  · rw [decode_fetchWindow_error hdecode] at hf
    cases hf

/-- Settles O35: past the fetch, an address at or above 65535 is one of the three after an IC below 65535. -/
theorem addressFaultsComeFromTheEndOfRam : Obligations.AddressFaultsComeFromTheEndOfRam := by
  unfold Obligations.AddressFaultsComeFromTheEndOfRam
  intro s addr h
  rw [step_eq_stepIn] at h
  rcases stepIn_eq_fault.mp h with hfetch | ⟨i, hic, -, hrule⟩
  · exact .inl (fetchInstr_addressOutOfRange hfetch)
  · have hout : 65535 ≤ addr := faultCause_of_ruleIn hrule
    have hle := address_le_of_exec_fault (exec_eq_fault.mpr hrule)
    rw [hardware_memSize] at hic
    omega

end Sys2Proof.Machine

/-! ### Ignored bytes (R86)

No rule takes the value of an ignored byte, so changing it in RAM can be noticed only where the rule reads RAM again:
through the pointer of a jump that is taken. -/

namespace Sys2Proof.Machine

/-- The state with another RAM. -/
def State.withRam (s : State) (m : Memory) : State := { s with ram := m }

/-- The step with the RAM `m` instead ends as the step itself does, but for RAM. -/
def StepUnawareOf (s : State) (m : Memory) : Prop :=
  (∀ t, step s = .next t → step (s.withRam m) = .next (t.withRam m)) ∧
    (∀ f, step s = .fault f → step (s.withRam m) = .fault f)

/-- A step does not notice the other RAM if the instructions fetched from the two have rules that do not. -/
theorem stepUnawareOf_of_ruleIn {s : State} {m : Memory} {i i' : Instr} (hi : decode (fetchWindow s) = .ok i)
    (hi' : decode (fetchWindow (s.withRam m)) = .ok i')
    (hrule : ruleIn Config.hardware i' (s.withRam m) = (·.withRam m) <$> ruleIn Config.hardware i s) :
    StepUnawareOf s m := by
  by_cases hic : s.ic < 65535
  · have hstep : step s = deliver (ruleIn Config.hardware i s) :=
      (step_of_decode hic hi).trans (exec_eq_deliver i s)
    have hstep' : step (s.withRam m) = deliver ((·.withRam m) <$> ruleIn Config.hardware i s) := by
      rw [step_of_decode (s := s.withRam m) hic hi', exec_eq_deliver, hrule]
    rw [StepUnawareOf, hstep, hstep']
    cases ruleIn Config.hardware i s with
    | ok t => exact ⟨fun _ h => by cases h; rfl, nofun⟩
    | error f => exact ⟨nofun, fun _ h => h⟩
  · have hout : 65535 ≤ s.ic := Nat.le_of_not_lt hic
    have hstep := fetchOutsideRamFaults s hout
    rw [StepUnawareOf, hstep, fetchOutsideRamFaults (s.withRam m) hout]
    exact ⟨nofun, fun _ h => h⟩

/-! #### The rules -/

section
variable {c : Config} {s : State} {m : Memory}

theorem ruleIn_push_withRam (ign ign' imm : Byte) :
    ruleIn c (.push ign' imm) (s.withRam m) = (·.withRam m) <$> ruleIn c (.push ign imm) s := by
  simp only [ruleIn, pushIn, map_bind]
  rfl

theorem ruleIn_pop_withRam (ign ign' : Byte) :
    ruleIn c (.pop ign') (s.withRam m) = (·.withRam m) <$> ruleIn c (.pop ign) s := by
  simp only [ruleIn, popIn, map_bind]
  rfl

/-- R144: besides its pointer byte the indirection reads the one byte that the pointer names. -/
theorem indirect_withRam {ptr : Byte} (hptr : m.read ptr.toNat = s.ram.read ptr.toNat) (q : Nat) :
    indirect c (s.withRam m) q ptr = indirect c s q ptr := by
  by_cases hq : q + 1 < c.memSize
  · have hpointer : operandByte c (q + 1) ptr = .ok ptr := operandByte_eq_ok.mpr ⟨hq, rfl⟩
    simp only [indirect, hpointer, bind_ok_eq, memRead, State.withRam, hptr]
  · have hout : c.memSize ≤ q + 1 := Nat.le_of_not_lt hq
    rw [indirect_of_pointer_outside_ram _ ptr hout, indirect_of_pointer_outside_ram _ ptr hout]

theorem ruleIn_jmp_withRam {ptr : Byte} (hptr : m.read ptr.toNat = s.ram.read ptr.toNat) (ign ign' : Byte) :
    ruleIn c (.jmp ign' ptr) (s.withRam m) = (·.withRam m) <$> ruleIn c (.jmp ign ptr) s := by
  simp only [ruleIn, jmpIn, map_bind, indirect_withRam hptr]
  rfl

theorem State.withRam_isZero (r : Reg) : (s.withRam m).isZero r = s.isZero r := by cases r <;> rfl

/-- R142, R143, R147: a conditional jump uses its pointer only when its selector is its own and its register 0. -/
theorem RunsJumpIfZero.ruleIn_withRam {i : Byte → Byte → Byte → Instr} {own : Reg} {sel ptr : Byte}
    (hi : RunsJumpIfZero i own)
    (hptr : selReg sel = some own → s.reg own = 0 → m.read ptr.toNat = s.ram.read ptr.toNat) (ign ign' : Byte) :
    ruleIn c (i sel ign' ptr) (s.withRam m) = (·.withRam m) <$> ruleIn c (i sel ign ptr) s := by
  rw [hi, hi]
  cases h : jumpIfZero c own sel ptr s with
  | ok t =>
    refine jumpIfZero_eq_ok.mpr ?_
    rw [State.withRam_isZero]
    obtain ⟨haddr, hsel, ⟨hzero, n, htarget, rfl⟩ | ⟨hzero, rfl⟩⟩ := jumpIfZero_eq_ok.mp h
    · rw [← indirect_withRam (hptr hsel (State.isZero_eq_true.mp hzero))] at htarget
      exact ⟨haddr, hsel, .inl ⟨hzero, n, htarget, rfl⟩⟩
    · exact ⟨haddr, hsel, .inr ⟨hzero, rfl⟩⟩
  | error f =>
    refine jumpIfZero_eq_error.mpr ?_
    rw [State.withRam_isZero]
    rcases jumpIfZero_eq_error.mp h with hf | hf | hf | ⟨haddr, hsel, hzero, htarget⟩
    · exact .inl hf
    · exact .inr (.inl hf)
    · exact .inr (.inr (.inl hf))
    · rw [← indirect_withRam (hptr hsel (State.isZero_eq_true.mp hzero))] at htarget
      exact .inr (.inr (.inr ⟨haddr, hsel, hzero, htarget⟩))

end

/-! #### The steps -/

section
variable {s : State} {m : Memory}

/-- Format XI (R83) of PUSH. -/
theorem decode_fetchWindow_of_push_opcode (hop : s.ram.read s.ic = 0x08) :
    decode (fetchWindow s) = .ok (.push (s.ram.read (s.ic + 1)) (s.ram.read (s.ic + 2))) := by
  rw [fetchWindow_eq, hop]
  rfl

/-- Format XI (R83) of JMP. -/
theorem decode_fetchWindow_of_jmp_opcode (hop : s.ram.read s.ic = 0x05) :
    decode (fetchWindow s) = .ok (.jmp (s.ram.read (s.ic + 1)) (s.ram.read (s.ic + 2))) := by
  rw [fetchWindow_eq, hop]
  rfl

theorem stepUnawareOf_push (hop : s.ram.read s.ic = 0x08) (hread : ∀ x, x ≠ s.ic + 1 → m.read x = s.ram.read x) :
    StepUnawareOf s m := by
  have hop' : m.read s.ic = 0x08 := by rw [hread _ (by omega), hop]
  have hi' : decode (fetchWindow (s.withRam m)) = .ok (.push (m.read (s.ic + 1)) (m.read (s.ic + 2))) :=
    decode_fetchWindow_of_push_opcode hop'
  rw [hread (s.ic + 2) (by omega)] at hi'
  exact stepUnawareOf_of_ruleIn (decode_fetchWindow_of_push_opcode hop) hi' (ruleIn_push_withRam _ _ _)

theorem stepUnawareOf_pop (hop : s.ram.read s.ic = 0x09) (hread : ∀ x, x ≠ s.ic + 1 → m.read x = s.ram.read x) :
    StepUnawareOf s m := by
  have hop' : m.read s.ic = 0x09 := by rw [hread _ (by omega), hop]
  exact stepUnawareOf_of_ruleIn (decode_fetchWindow_of_pop_opcode hop)
    (decode_fetchWindow_of_pop_opcode (s := s.withRam m) hop') (ruleIn_pop_withRam _ _)

theorem stepUnawareOf_jmp (hop : s.ram.read s.ic = 0x05) (hread : ∀ x, x ≠ s.ic + 1 → m.read x = s.ram.read x)
    (hptr : (s.ram.read (s.ic + 2)).toNat ≠ s.ic + 1) : StepUnawareOf s m := by
  have hop' : m.read s.ic = 0x05 := by rw [hread _ (by omega), hop]
  have hi' : decode (fetchWindow (s.withRam m)) = .ok (.jmp (m.read (s.ic + 1)) (m.read (s.ic + 2))) :=
    decode_fetchWindow_of_jmp_opcode hop'
  rw [hread (s.ic + 2) (by omega)] at hi'
  exact stepUnawareOf_of_ruleIn (decode_fetchWindow_of_jmp_opcode hop) hi' (ruleIn_jmp_withRam (hread _ hptr) _ _)

/-- R86: the ignored byte of a conditional jump, which lies two after its opcode. -/
theorem RunsJumpIfZero.stepUnawareOf {i : Byte → Byte → Byte → Instr} {own : Reg} (hi : RunsJumpIfZero i own)
    (hdecode : ∀ {u : State}, u.ram.read u.ic = own.jumpOpcode → decode (fetchWindow u) =
      .ok (i (u.ram.read (u.ic + 1)) (u.ram.read (u.ic + 2)) (u.ram.read (u.ic + 3))))
    (hop : s.ram.read s.ic = own.jumpOpcode) (hread : ∀ x, x ≠ s.ic + 2 → m.read x = s.ram.read x)
    (hptr : selReg (s.ram.read (s.ic + 1)) = some own → s.reg own = 0 → (s.ram.read (s.ic + 3)).toNat ≠ s.ic + 2) :
    StepUnawareOf s m := by
  have hop' : m.read s.ic = own.jumpOpcode := by rw [hread _ (by omega), hop]
  have hi' : decode (fetchWindow (s.withRam m)) =
      .ok (i (m.read (s.ic + 1)) (m.read (s.ic + 2)) (m.read (s.ic + 3))) :=
    hdecode hop'
  rw [hread (s.ic + 1) (by omega), hread (s.ic + 3) (by omega)] at hi'
  exact stepUnawareOf_of_ruleIn (hdecode hop) hi'
    (hi.ruleIn_withRam (fun hsel hreg => hread _ (hptr hsel hreg)) _ _)

end

theorem selReg_eq_some_a {b : Byte} : selReg b = some .a ↔ b = 1 := by simp [selReg_eq_some]

theorem selReg_eq_some_b {b : Byte} : selReg b = some .b ↔ b = 2 := by simp [selReg_eq_some]

/-- Settles O44: the two fetches differ in the ignored byte at most, and the rule reads the two memories alike. -/
theorem ignoredBytesHaveNoEffect : Obligations.IgnoredBytesHaveNoEffect := by
  unfold Obligations.IgnoredBytesHaveNoEffect
  intro s k v hwf hcases
  have hread (x : Nat) (hx : x ≠ s.ic + k) : (s.ram.write (s.ic + k) v).read x = s.ram.read x := by
    rw [Memory.read_write _ v x hwf, if_neg hx]
  rcases hcases with ⟨rfl, hop | hop⟩ | ⟨rfl, hop, hptr⟩ | ⟨rfl, hop, hptr⟩ | ⟨rfl, hop, hptr⟩
  · exact stepUnawareOf_push hop hread
  · exact stepUnawareOf_pop hop hread
  · exact stepUnawareOf_jmp hop hread hptr
  · exact jmpIfA_runsJumpIfZero.stepUnawareOf decode_fetchWindow_of_jmpIfA_opcode hop hread
      fun hsel => hptr (selReg_eq_some_a.mp hsel)
  · exact jmpIfB_runsJumpIfZero.stepUnawareOf decode_fetchWindow_of_jmpIfB_opcode hop hread
      fun hsel => hptr (selReg_eq_some_b.mp hsel)

end Sys2Proof.Machine
